-- ==== Sys2Proof/Word.lean ====
section
/-! DEFINITION. The word types of the CORE block: 00_scope.md section 6 (`u8`, `u32`, 16-bit fields, byte strings). -/

namespace Sys2Proof

/-- `u8`: one byte of CANVAS, of OUT, or one colour channel. -/
abbrev Byte := BitVec 8

/-- A 16-bit operand field; as a number it is `sint16` (30_encoding.md R59) or the count N (R58). -/
abbrev Half := BitVec 16

/-- `u32`: a register, a bus word, a word of CMD. -/
abbrev Word := BitVec 32

/-- A byte string, byte 0 first. -/
abbrev Bytes := List Byte

end Sys2Proof
end

