-- ==== Sys2Proof/Syntax.lean ====
section
/-! DEFINITION. The command set CORE-CMD revision 1: one constructor of `Instr` per row of spec/opcode_table.json
(30_encoding.md R61), operands as R58 and R59 name them. -/

namespace Sys2Proof

/-- A palette index P (30_encoding.md R58; the names are 10_state.md R28's). -/
inductive Pal where
  | background
  | accent
  | highlight
  | shadow
deriving DecidableEq, Repr

/-- A colour: an ordered triple (00_scope.md section 7); the operand RGB of R59 and what a palette register holds. -/
structure Rgb where
  r : Byte
  g : Byte
  b : Byte
deriving DecidableEq, Repr

/-- A pixel's four channels: the operand RGBA of R59. -/
structure Rgba where
  r : Byte
  g : Byte
  b : Byte
  a : Byte
deriving DecidableEq, Repr

/-- The eleven defined opcodes (R61). -/
inductive Op where
  | nop
  | endRun
  | setpal
  | clear
  | pixel
  | rect
  | circle
  | rrect
  | crcinit
  | crcdata
  | encode
deriving DecidableEq, Repr

/-- A command packet. Coordinates, sizes and radii are the 16-bit patterns of R59 (`sint16` of them is taken where they
are used); `crcdata` keeps its whole data words, so the padding of R60 is not lost. -/
inductive Instr where
  /-- NOP (43_control.md R105) -/
  | nop
  /-- END (R106) -/
  | endRun
  /-- SETPAL P, R, G, B (41_raster.md R82) -/
  | setpal (p : Pal) (c : Rgb)
  /-- CLEAR (R83) -/
  | clear
  /-- PIXEL X, Y, R, G, B, A (R84) -/
  | pixel (x y : Half) (c : Rgba)
  /-- RECT P, X0, Y0, W, H (R85) -/
  | rect (p : Pal) (x0 y0 w h : Half)
  /-- CIRCLE P, CX, CY, R (R86) -/
  | circle (p : Pal) (cx cy r : Half)
  /-- RRECT P, X0, Y0, W, H, R (R87) -/
  | rrect (p : Pal) (x0 y0 w h r : Half)
  /-- CRCINIT (40_checksum.md R74) -/
  | crcinit
  /-- CRCDATA N and its ceil(N/4) data words (R75, R60) -/
  | crcdata (n : Half) (data : List Word)
  /-- ENCODE (42_encoder.md R98) -/
  | encode
deriving DecidableEq, Repr

end Sys2Proof
end

