-- ==== Sys2Proof/WellFormed.lean ====
section
/-! DEFINITION. Which values of `Instr` are packets. The types carry every bound but one: CRCDATA's word count. -/

namespace Sys2Proof

/-- Number of words that hold `n` data bytes: ceil(n/4) (30_encoding.md R60, R62). -/
def dataWords (n : Nat) : Nat := (n + 3) / 4

/-- Packet well-formedness: a CRCDATA carries exactly ceil(N/4) data words (R60). -/
def Instr.wellFormed : Instr → Bool
  | .nop => true
  | .endRun => true
  | .setpal _ _ => true
  | .clear => true
  | .pixel _ _ _ => true
  | .rect _ _ _ _ _ => true
  | .circle _ _ _ _ => true
  | .rrect _ _ _ _ _ _ => true
  | .crcinit => true
  | .crcdata n data => data.length == dataWords n.toNat
  | .encode => true

end Sys2Proof
end

