-- ==== Sys2Proof/Decode.lean ====
section
/-! DEFINITION. Decoding of command packets (30_encoding.md R57 to R65) in the order of 60_exceptions.md R109, and the
encoder written from the same tables. A packet is whole 32-bit words; CMD has no byte order of its own (20_memory.md R46). -/

namespace Sys2Proof

/-! ### Fields of words -/

/-- Byte `j` of a word, byte 0 in bits 7:0. -/
def byteOf (w : Word) (j : Nat) : Byte := w.extractLsb' (8 * j) 8

/-- Bits 15:0: X, W or R of R59. -/
def lowHalf (w : Word) : Half := w.extractLsb' 0 16

/-- Bits 31:16: Y or H of R59, N of R58. -/
def highHalf (w : Word) : Half := w.extractLsb' 16 16

/-- `OP = hdr[7:0]` (R58). -/
def opField (hdr : Word) : Byte := hdr.extractLsb' 0 8

/-- The palette register that the two bits of P name (R58). -/
def Pal.ofBits (b : BitVec 2) : Pal :=
  if b = 0 then .background else if b = 1 then .accent else if b = 2 then .highlight else .shadow

/-- The two bits of P (R58). -/
def Pal.bits : Pal → BitVec 2
  | .background => 0
  | .accent => 1
  | .highlight => 2
  | .shadow => 3

/-- `P = hdr[9:8]` (R58). -/
def palField (hdr : Word) : Pal := Pal.ofBits (hdr.extractLsb' 8 2)

/-- The colour in bits 23:0 of a word: R 7:0, G 15:8, B 23:16 (R59; 10_state.md R28). -/
def Rgb.ofWord (w : Word) : Rgb := { r := byteOf w 0, g := byteOf w 1, b := byteOf w 2 }

/-- An RGB word; bits 31:24 are 0 (R59; 10_state.md R28). -/
def Rgb.toWord (c : Rgb) : Word := (0 : Byte) ++ c.b ++ c.g ++ c.r

/-- The channels of an RGBA word (R59). -/
def Rgba.ofWord (w : Word) : Rgba := { r := byteOf w 0, g := byteOf w 1, b := byteOf w 2, a := byteOf w 3 }

/-- An RGBA word (R59). -/
def Rgba.toWord (c : Rgba) : Word := c.a ++ c.b ++ c.g ++ c.r

/-- An XY or WH word: the first field in bits 15:0 (R59). -/
def pairWord (lo hi : Half) : Word := hi ++ lo

/-- A RAD word; bits 31:16 are 0 (R59). -/
def radWord (r : Half) : Word := (0 : Half) ++ r

/-! ### The opcode map -/

/-- The OP byte of each mnemonic (R61). -/
def Op.code : Op → Byte
  | .nop => 0x00
  | .endRun => 0x01
  | .setpal => 0x02
  | .clear => 0x03
  | .pixel => 0x10
  | .rect => 0x11
  | .circle => 0x12
  | .rrect => 0x13
  | .crcinit => 0x20
  | .crcdata => 0x21
  | .encode => 0x30

/-- Every opcode, in the table's order (R61). -/
def Op.all : List Op :=
  [.nop, .endRun, .setpal, .clear, .pixel, .rect, .circle, .rrect, .crcinit, .crcdata, .encode]

/-- The header mask of each mnemonic (R61): the bits that OP and the reserved fields of R58 fix. -/
def Op.headerMask : Op → Word
  | .nop => 0xFFFFFFFF
  | .endRun => 0xFFFFFFFF
  | .setpal => 0xFFFFFCFF
  | .clear => 0xFFFFFFFF
  | .pixel => 0xFFFFFFFF
  | .rect => 0xFFFFFCFF
  | .circle => 0xFFFFFCFF
  | .rrect => 0xFFFFFCFF
  | .crcinit => 0xFFFFFFFF
  | .crcdata => 0x0000FFFF
  | .encode => 0xFFFFFFFF

/-- The header match of each mnemonic (R61): OP, every reserved bit 0. -/
def Op.headerMatch (op : Op) : Word := op.code.setWidth 32

/-- The mnemonic whose OP byte is `b`; every other byte is illegal (R61, R63). -/
def opOf? (b : Byte) : Option Op := Op.all.find? (fun op => op.code == b)

/-- Packet length in words, from the mnemonic and the header (R62). -/
def Op.length (op : Op) (hdr : Word) : Nat :=
  match op with
  | .nop => 1
  | .endRun => 1
  | .setpal => 2
  | .clear => 1
  | .pixel => 3
  | .rect => 3
  | .circle => 3
  | .rrect => 4
  | .crcinit => 1
  | .crcdata => 1 + dataWords (highHalf hdr).toNat
  | .encode => 1

/-- `len(hdr)` (R62). R62 leaves it undefined for an illegal OP, which faults before its length is needed: 1 is taken
there, so that the header alone is fetched. DEDUCED, safe (notes/assumptions/19.md). -/
def packetLen (hdr : Word) : Nat :=
  match opOf? (opField hdr) with
  | some op => op.length hdr
  | none => 1

/-! ### Decoding -/

/-- Why words are no packet: the failing test of `CheckPacket` (60_exceptions.md R109), each with the header. -/
inductive Reject where
  /-- There is no header word: `pc >= CMD_WORDS`. -/
  | noHeader
  /-- The OP is not in R61's map (R63). -/
  | illegalOpcode (hdr : Word)
  /-- A reserved header or operand bit is 1 (R64). -/
  | reservedField (hdr : Word)
  /-- An operand word is missing: `pc + len > CMD_WORDS`. -/
  | truncated (hdr : Word)
deriving DecidableEq, Repr

/-- Operand word `k` of a packet, 0 the word after the header. -/
def operand (ops : List Word) (k : Nat) : Word := ops.getD k 0

/-- Bits 31:24 of an RGB word are 0 (R59, R64). -/
def rgbReservedOk (w : Word) : Bool := w.extractLsb' 24 8 == 0

/-- Bits 31:16 of a RAD word are 0 (R59, R64). -/
def radReservedOk (w : Word) : Bool := highHalf w == 0

/-- Does the packet's operand with reserved bits have them all 0 (R64; the three operand tests of R109)? -/
def operandReservedOk (op : Op) (ops : List Word) : Bool :=
  match op with
  | .nop => true
  | .endRun => true
  | .setpal => rgbReservedOk (operand ops 0)
  | .clear => true
  | .pixel => true
  | .rect => true
  | .circle => radReservedOk (operand ops 1)
  | .rrect => radReservedOk (operand ops 2)
  | .crcinit => true
  | .crcdata => true
  | .encode => true

/-- The packet with header `hdr` of mnemonic `op` and operand words `ops` (R58, R59, R60). -/
def buildPacket (op : Op) (hdr : Word) (ops : List Word) : Instr :=
  match op with
  | .nop => .nop
  | .endRun => .endRun
  | .setpal => .setpal (palField hdr) (Rgb.ofWord (operand ops 0))
  | .clear => .clear
  | .pixel => .pixel (lowHalf (operand ops 0)) (highHalf (operand ops 0)) (Rgba.ofWord (operand ops 1))
  | .rect => .rect (palField hdr) (lowHalf (operand ops 0)) (highHalf (operand ops 0))
      (lowHalf (operand ops 1)) (highHalf (operand ops 1))
  | .circle => .circle (palField hdr) (lowHalf (operand ops 0)) (highHalf (operand ops 0)) (lowHalf (operand ops 1))
  | .rrect => .rrect (palField hdr) (lowHalf (operand ops 0)) (highHalf (operand ops 0))
      (lowHalf (operand ops 1)) (highHalf (operand ops 1)) (lowHalf (operand ops 2))
  | .crcinit => .crcinit
  | .crcdata => .crcdata (highHalf hdr) (ops.take (dataWords (highHalf hdr).toNat))
  | .encode => .encode

/-- Decodes the first packet of a list of words and gives the words after it. The tests come in the order of R109:
header present, OP legal, header reserved bits, packet complete, operand reserved bits. -/
def decode : List Word → Except Reject (Instr × List Word)
  | [] => .error .noHeader
  | hdr :: ops =>
    match opOf? (opField hdr) with
    | none => .error (.illegalOpcode hdr)
    | some op =>
      if hdr &&& op.headerMask ≠ op.headerMatch then .error (.reservedField hdr)
      else if ops.length + 1 < op.length hdr then .error (.truncated hdr)
      else if !operandReservedOk op ops then .error (.reservedField hdr)
      else .ok (buildPacket op hdr ops, ops.drop (op.length hdr - 1))

/-! ### Encoding -/

/-- The mnemonic of a packet. -/
def Instr.op : Instr → Op
  | .nop => .nop
  | .endRun => .endRun
  | .setpal _ _ => .setpal
  | .clear => .clear
  | .pixel _ _ _ => .pixel
  | .rect _ _ _ _ _ => .rect
  | .circle _ _ _ _ => .circle
  | .rrect _ _ _ _ _ _ => .rrect
  | .crcinit => .crcinit
  | .crcdata _ _ => .crcdata
  | .encode => .encode

/-- A header of format F0 (R58). -/
def headerF0 (op : Op) : Word := (0 : BitVec 24) ++ op.code

/-- A header of format FP (R58). -/
def headerFP (op : Op) (p : Pal) : Word := (0 : BitVec 22) ++ p.bits ++ op.code

/-- A header of format FN (R58). -/
def headerFN (op : Op) (n : Half) : Word := n ++ (0 : Byte) ++ op.code

/-- The header word of a packet (R58, R61). -/
def Instr.header : Instr → Word
  | .nop => headerF0 .nop
  | .endRun => headerF0 .endRun
  | .setpal p _ => headerFP .setpal p
  | .clear => headerF0 .clear
  | .pixel _ _ _ => headerF0 .pixel
  | .rect p _ _ _ _ => headerFP .rect p
  | .circle p _ _ _ => headerFP .circle p
  | .rrect p _ _ _ _ _ => headerFP .rrect p
  | .crcinit => headerF0 .crcinit
  | .crcdata n _ => headerFN .crcdata n
  | .encode => headerF0 .encode

/-- The operand words of a packet (R59, R60, R61). -/
def Instr.operands : Instr → List Word
  | .nop => []
  | .endRun => []
  | .setpal _ c => [c.toWord]
  | .clear => []
  | .pixel x y c => [pairWord x y, c.toWord]
  | .rect _ x0 y0 w h => [pairWord x0 y0, pairWord w h]
  | .circle _ cx cy r => [pairWord cx cy, radWord r]
  | .rrect _ x0 y0 w h r => [pairWord x0 y0, pairWord w h, radWord r]
  | .crcinit => []
  | .crcdata _ data => data
  | .encode => []

/-- The words of a packet (R57): the header, then the operands. -/
def encode (i : Instr) : List Word := i.header :: i.operands

/-! ### Words numbered as the opcode table numbers them -/

/-- Word `k` of an instruction whose bits are `w`, bits at or above `nbits` 0. -/
def tableWord (nbits w k : Nat) : Word := BitVec.ofNat 32 ((w % 2 ^ nbits) >>> (32 * k))

/-- All words of that instruction: as many as its header asks for. -/
def tableWords (nbits w : Nat) : List Word :=
  (List.range (packetLen (tableWord nbits w 0))).map (tableWord nbits w)

/-- What `decode` reads from an instruction whose bits, numbered as spec/opcode_table.json numbers them, are `w`. -/
def decodeTableWord (nbits w : Nat) : Option Instr :=
  match decode (tableWords nbits w) with
  | .ok (i, _) => some i
  | .error _ => none

end Sys2Proof
end

