-- ==== Sys2Proof/Config.lean ====
section
/-! DEFINITION. What is fixed for one instance of the block (00_scope.md R1 to R3, R6) and the free values: the opaque
constants that stand for what the spec leaves as `ANY` or `OPEN`. -/

namespace Sys2Proof

/-- Which function the parameter `ZCOMPRESS` is (42_encoder.md R93). -/
inductive Compressor where
  /-- The reference compressor `STORED` of R95. -/
  | stored
  /-- The compressor that fails on every input: point 3 of R93 allows it. -/
  | failing
  /-- The compressor of a chip: any function that meets the law of R93 (`Config.chipCompress`). -/
  | chip
deriving DecidableEq, Repr

/-- The synthesis-time parameters of R3. The proof fields are the legal ranges of R2, R3 and R125, so a malformed
configuration cannot be written down. DESIGN CHOICE, safe (notes/assumptions/1.md). -/
structure Config where
  /-- `W`, read back from CFG_DIM bits 15:0 (10_state.md R17). -/
  width : Nat
  /-- `H`, read back from CFG_DIM bits 31:16 (R17). -/
  height : Nat
  /-- `CMD_WORDS`, read back from CFG_CMDW (R18). -/
  cmdWords : Nat
  /-- `OUT_CAP`, read back from CFG_OUTCAP (R19). -/
  outCap : Nat
  /-- Which function `ZCOMPRESS` is. -/
  compressor : Compressor
  width_range : 1 ≤ width ∧ width ≤ 1024
  height_range : 1 ≤ height ∧ height ≤ 1024
  cmdWords_range : 1 ≤ cmdWords ∧ cmdWords ≤ 16384
  outCap_range : 64 ≤ outCap ∧ outCap ≤ 8388608 ∧ outCap % 4 = 0
deriving DecidableEq, Repr

namespace Config

/-- The instance the spec describes (R1, R3): 128 by 128, 4096 command words, 131072 output bytes, the compressor open. -/
def thisInstance : Config where
  width := 128
  height := 128
  cmdWords := 4096
  outCap := 131072
  compressor := .chip
  width_range := by decide
  height_range := by decide
  cmdWords_range := by decide
  outCap_range := by decide

/-- Number of pixels of the canvas (20_memory.md R42). -/
def pixels (c : Config) : Nat := c.width * c.height

/-- Number of bytes of CANVAS (10_state.md R30). -/
def canvasBytes (c : Config) : Nat := c.pixels * 4

/-- FREE VALUE. Contents of CMD word `i` after hardware reset number `epoch`, until the host writes it (R29, R122: `ANY`).
Nothing constrains it (notes/assumptions/3.md). -/
opaque powerUpWord (epoch i : Nat) : Word

/-- FREE VALUE. The word of draw number `n`: what a read that the spec gives as `ANY` returns (R15, R31;
notes/assumptions/4.md, 5.md). -/
opaque anyWord (n : Nat) : Word

/-- OPEN. What a chip's compressor answers, before the law of R93 is imposed (`Machine.zcompress`;
notes/assumptions/10.md). -/
opaque chipCompress (s : Bytes) : Option Bytes

/-- OPEN. Bits 31:24 of `BASE` (R3, 20_memory.md R39); the low 24 bits are 0 (notes/assumptions/9.md). -/
opaque baseHigh : Byte

/-- `BASE`: the bus address of the block's offset 0, aligned to 16 MiB (R3). -/
def base : Word := baseHigh ++ (0 : BitVec 24)

end Config

end Sys2Proof
end

