-- ==== Sys2Proof/Machine/State.lean ====
section
/-! DEFINITION. The state of the block (10_state.md R7) as plain data, and the state right after a hardware reset
(70_reset_and_hazards.md R122, R124). -/

namespace Sys2Proof.Machine

/-- A memory: (address, value) pairs, addresses strictly rising, no pair equal to what an unlisted address reads as.
`Memory 8` is `List Host.Cell`; CMD is a `Memory 32` by word index. -/
abbrev Memory (n : Nat) := List (Nat × BitVec n)

/-- STATUS.FCODE by name (60_exceptions.md R108); the codes 7 to 15 are never written. -/
inductive FaultCode where
  | none
  | cmdBounds
  | illegalOpcode
  | reservedField
  | operandRange
  | outOverflow
  | compressFail
deriving DecidableEq, Repr

/-- STATUS (10_state.md R21). Its reserved bits read 0 and hold nothing. -/
structure Status where
  busy : Bool
  done : Bool
  fault : Bool
  busyErr : Bool
  fcode : FaultCode
deriving DecidableEq, Repr

/-- IE (R23). Its other bits read 0 and ignore writes. -/
structure IrqEnable where
  done : Bool
  fault : Bool
  busyErr : Bool
deriving DecidableEq, Repr

/-- PAL0..PAL3 (R28). Bits 31:24 of each read 0 and ignore writes, so 24 bits are held. -/
structure Palette where
  background : Rgb
  accent : Rgb
  highlight : Rgb
  shadow : Rgb
deriving DecidableEq, Repr

/-- A step that an agent takes (00_scope.md R5). -/
inductive Move where
  /-- The host reads the word at a bus address (20_memory.md R38). -/
  | hostRead (addr : Word)
  /-- The host writes a word to a bus address (R38). -/
  | hostWrite (addr data : Word)
  /-- The `rst` input is asserted: one atomic event (70_reset_and_hazards.md R122). -/
  | hardReset
  /-- The engine takes a step (43_control.md R101). -/
  | engine
deriving DecidableEq, Repr

/-- The state of the block, and last four fields of the model's own. -/
@[ext]
structure State where
  /-- What the read-only registers CFG_DIM, CFG_CMDW and CFG_OUTCAP hold (R17 to R19); no step changes it
  (notes/assumptions/1.md). -/
  cfg : Config
  /-- STATUS (R21) -/
  status : Status
  /-- IE (R23) -/
  ie : IrqEnable
  /-- PC, a word index into CMD (R22) -/
  pc : Word
  /-- FAULT_INFO (R24) -/
  faultInfo : Word
  /-- CRC_ACC (R25); CRC_VALUE is computed from it (R26) -/
  crcAcc : Word
  /-- OUT_LEN (R27) -/
  outLen : Word
  /-- PAL0..PAL3 (R28) -/
  pal : Palette
  /-- CMD (R29): an unlisted word is a free value (notes/assumptions/3.md) -/
  cmd : Memory 32
  /-- CANVAS (R30): an unlisted byte is 0 -/
  canvas : Memory 8
  /-- OUT (R31): an unlisted byte is a free value (notes/assumptions/5.md) -/
  out : Memory 8
  /-- CLR_PEND (R34) -/
  clrPend : Bool
  /-- The model's own: moves still to come, first one first; the engine moves where it is empty (notes/assumptions/7.md) -/
  agenda : List Move
  /-- The model's own: the bus's read data, what the last host read returned (notes/assumptions/8.md) -/
  readData : Word
  /-- The model's own: how many host reads have drawn a free value (notes/assumptions/4.md) -/
  draws : Nat
  /-- The model's own: how many hardware resets have been, which names CMD's free contents (notes/assumptions/3.md) -/
  cmdEpoch : Nat
deriving DecidableEq, Repr

/-- Reasons for the machine to stop with a fault: none. Every fault of the spec is a state of the machine, reached by a
next state (60_exceptions.md R108, R110), and host transactions never fault (R111). -/
inductive Fault where
deriving DecidableEq, Repr

/-- Reasons for the model to have no meaning. -/
inductive Refusal where
  /-- Raised by `exec` for an instruction without a meaning; no arm raises it any more. Safe. -/
  | notModelled (mnemonic : String)
deriving DecidableEq, Repr

/-- The black palette (R28's reset value). -/
def Palette.black : Palette where
  background := { r := 0, g := 0, b := 0 }
  accent := { r := 0, g := 0, b := 0 }
  highlight := { r := 0, g := 0, b := 0 }
  shadow := { r := 0, g := 0, b := 0 }

/-- An instance right after a hardware reset, before the reset clear (R122; R124, second column). -/
def State.powerUp (cfg : Config) : State where
  cfg := cfg
  status := { busy := true, done := false, fault := false, busyErr := false, fcode := .none }
  ie := { done := false, fault := false, busyErr := false }
  pc := 0
  faultInfo := 0
  crcAcc := 0xFFFFFFFF
  outLen := 0
  pal := Palette.black
  cmd := []
  canvas := []
  out := []
  clrPend := true
  agenda := []
  readData := 0
  draws := 0
  cmdEpoch := 0

/-- The instance the spec describes right after a hardware reset: STATUS = 1, CLR_PEND = 1 (R122). -/
def State.reset : State := State.powerUp Config.thisInstance

end Sys2Proof.Machine
end

