-- ==== Sys2Proof/Machine/Ops.lean ====
section
/-! DEFINITION. The shared operations over memories and registers: reading and writing memories, the one way a packet
advances PC, taking a fault (60_exceptions.md R110), the resets and the reset clear, and fetching a packet. -/

namespace Sys2Proof.Machine

/-! ### Memories -/

/-- The value listed at address `a`, if one is. -/
def Memory.get? {n : Nat} : Memory n → Nat → Option (BitVec n)
  | [], _ => none
  | (b, v) :: m, a => if b = a then some v else Memory.get? m a

/-- Lists `v` at `a`, at its place in the rising order. -/
def Memory.insert {n : Nat} : Memory n → Nat → BitVec n → Memory n
  | [], a, v => [(a, v)]
  | (b, u) :: m, a, v =>
    if a < b then (a, v) :: (b, u) :: m
    else if a = b then (a, v) :: m
    else (b, u) :: Memory.insert m a v

/-- Lists nothing at `a`. -/
def Memory.erase {n : Nat} (m : Memory n) (a : Nat) : Memory n := m.filter (fun c => c.1 != a)

/-- Writes `v` at `a`, where `absent` is what an unlisted address reads as (`none`: no fixed value): writing that value
removes the entry, so that equal memories are equal lists. -/
def Memory.put {n : Nat} (absent : Option (BitVec n)) (m : Memory n) (a : Nat) (v : BitVec n) : Memory n :=
  if absent = some v then m.erase a else m.insert a v

/-- The cells that `f` gives for the addresses `lo`, `lo + 1`, … below `lo + k`, canonical. -/
def Memory.cells {n : Nat} (absent : Option (BitVec n)) (f : Nat → Option (BitVec n)) : Nat → Nat → Memory n
  | _, 0 => []
  | lo, k + 1 =>
    match f lo with
    | none => Memory.cells absent f (lo + 1) k
    | some v =>
      if absent = some v then Memory.cells absent f (lo + 1) k
      else (lo, v) :: Memory.cells absent f (lo + 1) k

/-- Puts cell `c` into `m` in front of the first higher address, `rest` being what goes on after it. -/
def Memory.mergeOne {n : Nat} (c : Nat × BitVec n) (rest : Memory n → Memory n) : Memory n → Memory n
  | [] => c :: rest []
  | d :: m => if c.1 < d.1 then c :: rest (d :: m) else d :: Memory.mergeOne c rest m

/-- Two rising lists as one. -/
def Memory.merge {n : Nat} : Memory n → Memory n → Memory n
  | [] => fun m => m
  | c :: l => Memory.mergeOne c (Memory.merge l)

/-- Writes `f a` at every address `a < size` where `f` gives a value, all at once. -/
def Memory.overlay {n : Nat} (absent : Option (BitVec n)) (f : Nat → Option (BitVec n)) (size : Nat) (m : Memory n) :
    Memory n :=
  Memory.merge (Memory.cells absent f 0 size) (m.filter (fun c => !(decide (c.1 < size) && (f c.1).isSome)))

/-- The memory that holds the values of `l` at the addresses from `a` on. -/
def Memory.ofList {n : Nat} : Nat → List (BitVec n) → Memory n
  | _, [] => []
  | a, v :: l => (a, v) :: Memory.ofList (a + 1) l

/-- The `k` values from address `a` on, in one pass over a rising list; unlisted addresses read as `dflt`. -/
def Memory.span {n : Nat} (dflt : BitVec n) : Nat → Nat → Memory n → List (BitVec n)
  | _, 0, _ => []
  | a, k + 1, m =>
    match m.dropWhile (fun c => decide (c.1 < a)) with
    | [] => dflt :: Memory.span dflt (a + 1) k []
    | (b, v) :: rest =>
      if b = a then v :: Memory.span dflt (a + 1) k rest
      else dflt :: Memory.span dflt (a + 1) k ((b, v) :: rest)

/-- Are the addresses strictly rising? -/
def Memory.rising {n : Nat} : Memory n → Bool
  | [] => true
  | [_] => true
  | c :: d :: m => decide (c.1 < d.1) && Memory.rising (d :: m)

/-- The canonical form of a memory of `size` cells: addresses strictly rising and below `size`, no entry equal to what an
unlisted address reads as. -/
def Memory.wf {n : Nat} (absent : Option (BitVec n)) (size : Nat) (m : Memory n) : Bool :=
  m.rising && m.all (fun c => decide (c.1 < size) && decide (absent ≠ some c.2))

/-! ### CMD, CANVAS, OUT -/

/-- `CMD[i]` (10_state.md R29): as the host wrote it, or a free value since the last hardware reset. -/
def cmdWord (s : State) (i : Nat) : Word := (s.cmd.get? i).getD (Config.powerUpWord s.cmdEpoch i)

/-- `CMD[i] <- v` for `i < CMD_WORDS`. -/
def putCmd (s : State) (i : Nat) (v : Word) : State := { s with cmd := s.cmd.put none i v }

/-- `CANVAS[a]` (R30): 0 where nothing is listed. -/
def canvasByte (s : State) (a : Nat) : Byte := (s.canvas.get? a).getD 0

/-- `CANVAS[a] <- v`. -/
def putCanvas (s : State) (a : Nat) (v : Byte) : State := { s with canvas := s.canvas.put (some 0) a v }

/-- `for a in 0..W*H*4-1: CANVAS[a] <- 0` (41_raster.md R83, 10_state.md R34): no byte of the canvas is listed. -/
def zeroCanvas (s : State) : State := { s with canvas := [] }

/-- `OUT[a]` for a draw `d` of the free bytes (R31): `ANY` at and past OUT_LEN. -/
def outByte (s : State) (d : Word) (a : Nat) : Byte :=
  if a < s.outLen.toNat then (s.out.get? a).getD (byteOf d (a % 4)) else byteOf d (a % 4)

/-- `OUT[i] <- f[i]` for the bytes of `f`, the rest of OUT `ANY`, `OUT_LEN <- len(f)` (42_encoder.md R98). -/
def putOut (s : State) (f : Bytes) : State := { s with out := Memory.ofList 0 f, outLen := BitVec.ofNat 32 f.length }

/-- `OUT_LEN <- 0; OUT <- ANY` (R99): nothing of OUT is listed. -/
def voidOut (s : State) : State := { s with out := [], outLen := 0 }

/-- A word whose byte `j` is `f j`: the little-endian packing of window words (20_memory.md R42, R43, R46). -/
def packWord (f : Nat → Byte) : Word := f 3 ++ f 2 ++ f 1 ++ f 0

/-! ### Sequencing and faults -/

/-- `pc <- pc + n` (43_control.md R101, R102). -/
def advance (n : Nat) (s : State) : State := { s with pc := s.pc + BitVec.ofNat 32 n }

/-- `raise Fault(code, info)` (60_exceptions.md R110): the run ends, PC keeps the faulting packet's header index. -/
def raiseFault (code : FaultCode) (info : Word) (s : State) : State :=
  { s with status := { s.status with busy := false, fault := true, fcode := code }, faultInfo := info }

/-- The fault that `CheckPacket` raises when decoding fails (R109): its code and FAULT_INFO. -/
def raiseReject (r : Reject) (s : State) : State :=
  match r with
  | .noHeader => raiseFault .cmdBounds 0 s
  | .illegalOpcode hdr => raiseFault .illegalOpcode hdr s
  | .reservedField hdr => raiseFault .reservedField hdr s
  | .truncated hdr => raiseFault .cmdBounds hdr s

/-- The end of a run by END (43_control.md R106): BUSY <- 0, DONE <- 1. -/
def endRun (s : State) : State := { s with status := { s.status with busy := false, done := true } }

/-- The beginning of a run: START while idle (10_state.md R20). -/
def startRun (s : State) : State :=
  { s with status := { s.status with busy := true, done := false, fault := false, fcode := .none }, faultInfo := 0 }

/-! ### Reset -/

/-- A soft reset (70_reset_and_hazards.md R123): all of R122 but CMD, which keeps its contents. CANVAS is left to the
reset clear, before which nothing can observe it (notes/assumptions/6.md). -/
def softReset (s : State) : State :=
  { s with
    pc := 0
    ie := { done := false, fault := false, busyErr := false }
    faultInfo := 0
    crcAcc := 0xFFFFFFFF
    outLen := 0
    pal := Palette.black
    status := { busy := true, done := false, fault := false, busyErr := false, fcode := .none }
    clrPend := true
    out := [] }

/-- A hardware reset (R122): a soft reset, and CMD becomes `ANY`. -/
def hardReset (s : State) : State := { softReset s with cmd := [], cmdEpoch := s.cmdEpoch + 1 }

/-- The reset clear (10_state.md R34): CANVAS zeroed, CLR_PEND <- 0, BUSY <- 0, DONE not set. -/
def resetClear (s : State) : State :=
  { zeroCanvas s with clrPend := false, status := { s.status with busy := false } }

/-! ### Fetch -/

/-- `CMD[i], CMD[i+1], …`, `n` words, those at or past CMD_WORDS left out. -/
def cmdWordsFrom (s : State) : Nat → Nat → List Word
  | _, 0 => []
  | i, n + 1 => if i < s.cfg.cmdWords then cmdWord s i :: cmdWordsFrom s (i + 1) n else []

/-- The words of the packet at PC: its header, if PC is below CMD_WORDS, and as many of the operand words that the header
asks for as CMD has (43_control.md R101, 60_exceptions.md R109). -/
def fetchPacket (s : State) : List Word :=
  if s.pc.toNat < s.cfg.cmdWords then cmdWordsFrom s s.pc.toNat (packetLen (cmdWord s s.pc.toNat)) else []

end Sys2Proof.Machine
end

