-- ==== Sys2Proof/Machine/Operands.lean ====
section
/-! DEFINITION. What the operand words of a packet stand for (30_encoding.md R59, R60): signed coordinates, palette colours
and CRCDATA's bytes. -/

namespace Sys2Proof.Machine

/-- `sint16` of a 16-bit field, an exact integer (00_scope.md section 6, 41_raster.md R76). -/
def sint16 (h : Half) : Int := h.toInt

/-- `reg(PAL_P)` (10_state.md R28). -/
def palColour (s : State) : Pal → Rgb
  | .background => s.pal.background
  | .accent => s.pal.accent
  | .highlight => s.pal.highlight
  | .shadow => s.pal.shadow

/-- `reg(PAL_P) <- c` (41_raster.md R82). -/
def putPal (s : State) (p : Pal) (c : Rgb) : State :=
  match p with
  | .background => { s with pal := { s.pal with background := c } }
  | .accent => { s with pal := { s.pal with accent := c } }
  | .highlight => { s with pal := { s.pal with highlight := c } }
  | .shadow => { s with pal := { s.pal with shadow := c } }

/-- A palette colour as the fills draw it: alpha 255 (R79). -/
def opaqueColour (c : Rgb) : Rgba := { r := c.r, g := c.g, b := c.b, a := 255 }

/-- Channel `j` of a pixel: R, G, B, A at bytes 0 to 3 (20_memory.md R44). -/
def channel (c : Rgba) (j : Nat) : Byte :=
  match j with
  | 0 => c.r
  | 1 => c.g
  | 2 => c.b
  | _ => c.a

/-- The four bytes of a data word, byte 0 (bits 7:0) first (30_encoding.md R59, R60). -/
def wordBytes (w : Word) : Bytes := [byteOf w 0, byteOf w 1, byteOf w 2, byteOf w 3]

/-- The `N` data bytes of a CRCDATA packet; the padding of the last word is left out (R60, 40_checksum.md R75). -/
def dataBytes (n : Half) (data : List Word) : Bytes := (data.flatMap wordBytes).take n.toNat

end Sys2Proof.Machine
end

