-- ==== Sys2Proof/Machine/Flags.lean ====
section
/-! DEFINITION. The block has no condition codes (10_state.md R9): its only flags are the bits of STATUS and their interrupt
enables. This file gives those registers as words, clears STATUS bits by write-1 and computes `irq`. -/

namespace Sys2Proof.Machine

/-- The 4-bit code of each fault (60_exceptions.md R108). -/
def FaultCode.code : FaultCode → BitVec 4
  | .none => 0
  | .cmdBounds => 1
  | .illegalOpcode => 2
  | .reservedField => 3
  | .operandRange => 4
  | .outOverflow => 5
  | .compressFail => 6

/-- One bit as a word of one bit. -/
def bit (b : Bool) : BitVec 1 := BitVec.ofBool b

/-- STATUS as the host reads it (10_state.md R21): BUSY 0, DONE 1, FAULT 2, BUSYERR 3, FCODE 11:8, all else 0. -/
def Status.toWord (st : Status) : Word :=
  (0 : BitVec 20) ++ st.fcode.code ++ (0 : BitVec 4) ++ bit st.busyErr ++ bit st.fault ++ bit st.done ++ bit st.busy

/-- A host write to STATUS (R21): each of DONE, FAULT, BUSYERR written as 1 is cleared; clearing FAULT sets FCODE to 0;
BUSY and FCODE themselves ignore the write. -/
def Status.clear (st : Status) (data : Word) : Status :=
  { busy := st.busy
    done := st.done && !data.getLsbD 1
    fault := st.fault && !data.getLsbD 2
    busyErr := st.busyErr && !data.getLsbD 3
    fcode := if data.getLsbD 2 then .none else st.fcode }

/-- IE as the host reads it (R23): DONE_IE 1, FAULT_IE 2, BUSYERR_IE 3, all else 0. -/
def IrqEnable.toWord (ie : IrqEnable) : Word :=
  (0 : BitVec 28) ++ bit ie.busyErr ++ bit ie.fault ++ bit ie.done ++ (0 : BitVec 1)

/-- A host write to IE (R23): bits 3:1; the others ignore the write. -/
def IrqEnable.ofWord (w : Word) : IrqEnable :=
  { done := w.getLsbD 1, fault := w.getLsbD 2, busyErr := w.getLsbD 3 }

/-- The interrupt output (60_exceptions.md R113). -/
def irq (s : State) : Bool :=
  (s.status.done && s.ie.done) || (s.status.fault && s.ie.fault) || (s.status.busyErr && s.ie.busyErr)

end Sys2Proof.Machine
end

