-- ==== Sys2Proof/Machine/Control.lean ====
section
/-! DEFINITION. The control commands (43_control.md section 2): NOP and END. -/

namespace Sys2Proof.Machine

/-- NOP: `pc <- pc + 1` (R105). -/
def execNop (s : State) : Host.Outcome State Fault Refusal := .next (advance 1 s)

/-- END: `pc <- pc + 1`, BUSY <- 0, DONE <- 1 (R106). -/
def execEndRun (s : State) : Host.Outcome State Fault Refusal := .next (endRun (advance 1 s))

end Sys2Proof.Machine
end

