-- ==== Sys2Proof/Machine/Checksum.lean ====
section
/-! DEFINITION. The CRC-32 checksum generator (40_checksum.md): the algorithm, CRCINIT and CRCDATA. -/

namespace Sys2Proof.Machine

/-- `POLY` (R68). -/
def crcPoly : Word := 0xEDB88320

/-- One round of the table construction (R69). -/
def crcRound (c : Word) : Word := if c.getLsbD 0 then (c >>> 1) ^^^ crcPoly else c >>> 1

/-- `n` rounds. -/
def crcRounds : Nat → Word → Word
  | 0, c => c
  | n + 1, c => crcRounds n (crcRound c)

/-- `CRC_TABLE[n]`: eight rounds from `n` (R69); a constant, no state (10_state.md R32). -/
def crcTable (n : Byte) : Word := crcRounds 8 (n.setWidth 32)

/-- `CrcStep` (R70). -/
def crcStep (acc : Word) (b : Byte) : Word := crcTable (byteOf acc 0 ^^^ b) ^^^ (acc >>> 8)

/-- `CrcUpdate` (R70): bytes in order, first byte first. -/
def crcUpdate (acc : Word) (s : Bytes) : Word := s.foldl crcStep acc

/-- `Crc32` (R71). -/
def crc32 (s : Bytes) : Word := crcUpdate 0xFFFFFFFF s ^^^ 0xFFFFFFFF

/-- `reg(CRC_VALUE)`, computed from CRC_ACC (10_state.md R26). -/
def crcValue (s : State) : Word := s.crcAcc ^^^ 0xFFFFFFFF

/-- CRCINIT: `CRC_ACC <- 0xFFFFFFFF` (R74). -/
def execCrcinit (s : State) : Host.Outcome State Fault Refusal := .next (advance 1 { s with crcAcc := 0xFFFFFFFF })

/-- CRCDATA: `CRC_ACC <- CrcUpdate(CRC_ACC, s)` for the packet's N data bytes; `pc <- pc + 1 + ceil(N/4)` (R75). -/
def execCrcdata (n : Half) (data : List Word) (s : State) : Host.Outcome State Fault Refusal :=
  .next (advance (1 + dataWords n.toNat) { s with crcAcc := crcUpdate s.crcAcc (dataBytes n data) })

end Sys2Proof.Machine
end

