-- ==== Sys2Proof/Machine/Zlib.lean ====
section
/-! DEFINITION. The zlib stream of 42_encoder.md R94 (RFC 1950 around RFC 1951 deflate data): Adler-32, the reference
compressor `STORED` (R95), and the decompressor that the law of R93 speaks of. R94 gives the wrapper and R95 the stored block;
the two Huffman block types are RFC 1951's, PRESUMED from general knowledge (notes/assumptions/11.md). -/

namespace Sys2Proof.Machine

/-- `BE32` of a word (00_scope.md section 6). -/
def be32 (v : Word) : Bytes := [v.extractLsb' 24 8, v.extractLsb' 16 8, v.extractLsb' 8 8, v.extractLsb' 0 8]

/-- `LE16` of a number below 2^16 (00_scope.md section 6). -/
def le16 (v : BitVec 16) : Bytes := [v.extractLsb' 0 8, v.extractLsb' 8 8]

/-- One byte of the Adler-32 sums (R94): `a` sums the bytes, `b` sums the values of `a`, both modulo 65521. -/
def adlerStep (s : Nat × Nat) (x : Byte) : Nat × Nat :=
  let a := (s.1 + x.toNat) % 65521
  (a, (s.2 + a) % 65521)

/-- The Adler-32 of a byte string: `b << 16 | a` (R94). -/
def adler32 (s : Bytes) : Word :=
  let t := s.foldl adlerStep (1, 0)
  BitVec.ofNat 32 (t.2 * 65536 + t.1)

/-! ### STORED -/

/-- One stored block: the BFINAL byte, LEN, its complement, the piece (R95). -/
def storedBlock (final : Bool) (piece : Bytes) : Bytes :=
  let len : BitVec 16 := BitVec.ofNat 16 piece.length
  (if final then 1 else 0) :: (le16 len ++ le16 (len ^^^ 0xFFFF) ++ piece)

/-- `blocks(S)` (R95) in at most `fuel + 1` pieces of 65535 bytes, the last one shorter. -/
def storedBlocks : Nat → Bytes → Bytes
  | 0, s => storedBlock true s
  | fuel + 1, s =>
    if s.length ≤ 65535 then storedBlock true s
    else storedBlock false (s.take 65535) ++ storedBlocks fuel (s.drop 65535)

/-- The stream that `STORED` gives for `s` (R95). -/
def storedStream (s : Bytes) : Bytes := [0x78, 0x01] ++ storedBlocks (s.length / 65535) s ++ be32 (adler32 s)

/-! ### Bits of a deflate stream -/

/-- A place in a deflate stream: the bytes from the current one on, and how many of its bits are used (0 to 7). Bits are
taken from each byte's least significant end (RFC 1951 section 3.1.1). -/
structure BitCursor where
  bytes : Bytes
  used : Nat
deriving DecidableEq, Repr

/-- The next bit. -/
def BitCursor.bit (c : BitCursor) : Option (Bool × BitCursor) :=
  match c.bytes with
  | [] => none
  | x :: rest =>
    some (x.getLsbD c.used, if c.used = 7 then { bytes := rest, used := 0 } else { bytes := c.bytes, used := c.used + 1 })

/-- The next `n` bits as a number, first bit least significant. -/
def BitCursor.bits : Nat → BitCursor → Option (Nat × BitCursor)
  | 0, c => some (0, c)
  | n + 1, c =>
    match c.bit with
    | none => none
    | some (b, c') =>
      match BitCursor.bits n c' with
      | none => none
      | some (v, c'') => some (b.toNat + 2 * v, c'')

/-- The bytes from the next byte boundary on. -/
def BitCursor.aligned (c : BitCursor) : Bytes := if c.used = 0 then c.bytes else c.bytes.tail

/-! ### Huffman codes -/

/-- A canonical Huffman code (RFC 1951 section 3.2.2): how many codes each length 1, 2, … has, and the symbols by length and
then by value. -/
structure Huffman where
  counts : List Nat
  symbols : List Nat
deriving DecidableEq, Repr

/-- The symbols of code length `len`, rising. -/
def symbolsOfLength (len : Nat) (lengths : List Nat) : List Nat :=
  (List.range lengths.length).filter (fun s => lengths.getD s 0 == len)

/-- Is the code not over-subscribed: do the counts of lengths 1, 2, … fit `left` free codes? -/
def kraftOk : Nat → List Nat → Bool
  | _, [] => true
  | left, n :: counts => decide (n ≤ 2 * left) && kraftOk (2 * left - n) counts

/-- The code of a list of code lengths, one per symbol, 0 for an unused one; none where it is over-subscribed. -/
def Huffman.ofLengths (lengths : List Nat) : Option Huffman :=
  let groups := (List.range 15).map (fun k => symbolsOfLength (k + 1) lengths)
  let counts := groups.map List.length
  if kraftOk 1 counts then some { counts := counts, symbols := groups.flatten } else none

/-- Walks the code lengths: `code` is what has been read, `first` the first code of this length, `index` its symbol's place. -/
def huffmanWalk (symbols : List Nat) : List Nat → Nat → Nat → Nat → BitCursor → Option (Nat × BitCursor)
  | [], _, _, _, _ => none
  | n :: counts, code, first, index, c =>
    match c.bit with
    | none => none
    | some (b, c') =>
      let code := code + b.toNat
      if code < first + n then
        match symbols[index + (code - first)]? with
        | none => none
        | some s => some (s, c')
      else huffmanWalk symbols counts (2 * code) (2 * (first + n)) (index + n) c'

/-- The next symbol. -/
def Huffman.next (h : Huffman) (c : BitCursor) : Option (Nat × BitCursor) := huffmanWalk h.symbols h.counts 0 0 0 c

/-- Base match lengths of symbols 257 to 285, and their extra bits (RFC 1951 section 3.2.5). -/
def lengthCodes : List (Nat × Nat) :=
  [(3, 0), (4, 0), (5, 0), (6, 0), (7, 0), (8, 0), (9, 0), (10, 0), (11, 1), (13, 1), (15, 1), (17, 1), (19, 2), (23, 2),
   (27, 2), (31, 2), (35, 3), (43, 3), (51, 3), (59, 3), (67, 4), (83, 4), (99, 4), (115, 4), (131, 5), (163, 5), (195, 5),
   (227, 5), (258, 0)]

/-- Base distances of symbols 0 to 29, and their extra bits (RFC 1951 section 3.2.5). -/
def distanceCodes : List (Nat × Nat) :=
  [(1, 0), (2, 0), (3, 0), (4, 0), (5, 1), (7, 1), (9, 2), (13, 2), (17, 3), (25, 3), (33, 4), (49, 4), (65, 5), (97, 5),
   (129, 6), (193, 6), (257, 7), (385, 7), (513, 8), (769, 8), (1025, 9), (1537, 9), (2049, 10), (3073, 10), (4097, 11),
   (6145, 11), (8193, 12), (12289, 12), (16385, 13), (24577, 13)]

/-- A base value plus its extra bits. -/
def baseAndExtra (codes : List (Nat × Nat)) (k : Nat) (c : BitCursor) : Option (Nat × BitCursor) :=
  match codes[k]? with
  | none => none
  | some (base, extra) =>
    match c.bits extra with
    | none => none
    | some (v, c') => some (base + v, c')

/-- Copies `len` bytes from `dist` bytes back; `out` is the output so far, last byte first. -/
def copyBack (dist : Nat) : Nat → Bytes → Option Bytes
  | 0, out => some out
  | len + 1, out =>
    match out[dist - 1]? with
    | none => none
    | some x => copyBack dist len (x :: out)

/-- The symbols of one Huffman block up to its end-of-block symbol 256; `fuel` bounds their number. -/
def inflateSymbols (lit dist : Huffman) : Nat → BitCursor → Bytes → Option (BitCursor × Bytes)
  | 0, _, _ => none
  | fuel + 1, c, out =>
    match lit.next c with
    | none => none
    | some (sym, c) =>
      if sym < 256 then inflateSymbols lit dist fuel c (BitVec.ofNat 8 sym :: out)
      else if sym = 256 then some (c, out)
      else
        match baseAndExtra lengthCodes (sym - 257) c with
        | none => none
        | some (len, c) =>
          match dist.next c with
          | none => none
          | some (dsym, c) =>
            match baseAndExtra distanceCodes dsym c with
            | none => none
            | some (d, c) =>
              match copyBack d len out with
              | none => none
              | some out => inflateSymbols lit dist fuel c out

/-- The literal/length code lengths of a block with fixed codes (RFC 1951 section 3.2.6). -/
def fixedLitLengths : List Nat :=
  List.replicate 144 8 ++ List.replicate 112 9 ++ List.replicate 24 7 ++ List.replicate 8 8

/-- The distance code lengths of a block with fixed codes; symbols 30 and 31 never stand for a distance. -/
def fixedDistLengths : List Nat := List.replicate 32 5

/-- The order in which code-length code lengths are sent (RFC 1951 section 3.2.7). -/
def codeLengthOrder : List Nat := [16, 17, 18, 0, 8, 7, 9, 6, 10, 5, 11, 4, 12, 3, 13, 2, 14, 1, 15]

/-- `n` fields of three bits. -/
def readTriples : Nat → BitCursor → Option (List Nat × BitCursor)
  | 0, c => some ([], c)
  | n + 1, c =>
    match c.bits 3 with
    | none => none
    | some (v, c) =>
      match readTriples n c with
      | none => none
      | some (l, c) => some (v :: l, c)

/-- The nineteen code-length code lengths, from those sent in `codeLengthOrder`. -/
def orderLengths (sent : List Nat) : List Nat := (List.range 19).map (fun s => sent.getD (codeLengthOrder.idxOf s) 0)

/-- Code lengths until `total` are read, with the repeat symbols 16 to 18 (RFC 1951 section 3.2.7); `acc` is those so far,
last one first. -/
def readLengths (h : Huffman) (total : Nat) : Nat → BitCursor → List Nat → Option (List Nat × BitCursor)
  | 0, _, _ => none
  | fuel + 1, c, acc =>
    if acc.length = total then some (acc.reverse, c)
    else if total < acc.length then none
    else
      match h.next c with
      | none => none
      | some (sym, c) =>
        if sym < 16 then readLengths h total fuel c (sym :: acc)
        else if sym = 16 then
          match acc, c.bits 2 with
          | x :: _, some (v, c) => readLengths h total fuel c (List.replicate (3 + v) x ++ acc)
          | _, _ => none
        else if sym = 17 then
          match c.bits 3 with
          | none => none
          | some (v, c) => readLengths h total fuel c (List.replicate (3 + v) 0 ++ acc)
        else
          match c.bits 7 with
          | none => none
          | some (v, c) => readLengths h total fuel c (List.replicate (11 + v) 0 ++ acc)

/-- The two codes that a block with dynamic codes sends first (RFC 1951 section 3.2.7). -/
def readCodes (c : BitCursor) : Option (Huffman × Huffman × BitCursor) :=
  match c.bits 5 with
  | none => none
  | some (hlit, c) =>
    match c.bits 5 with
    | none => none
    | some (hdist, c) =>
      match c.bits 4 with
      | none => none
      | some (hclen, c) =>
        if 29 < hlit then none
        else
          match readTriples (hclen + 4) c with
          | none => none
          | some (sent, c) =>
            match Huffman.ofLengths (orderLengths sent) with
            | none => none
            | some h =>
              match readLengths h (257 + hlit + (1 + hdist)) (257 + hlit + (1 + hdist) + 1) c [] with
              | none => none
              | some (lengths, c) =>
                match Huffman.ofLengths (lengths.take (257 + hlit)), Huffman.ofLengths (lengths.drop (257 + hlit)) with
                | some lit, some dist => some (lit, dist, c)
                | _, _ => none

/-! ### Blocks -/

/-- A stored block after its type bits (R95, RFC 1951 section 3.2.4): LEN, its complement, LEN bytes. -/
def inflateStored (c : BitCursor) (out : Bytes) : Option (BitCursor × Bytes) :=
  match c.aligned with
  | l0 :: l1 :: n0 :: n1 :: body =>
    let len : BitVec 16 := l1 ++ l0
    let nlen : BitVec 16 := n1 ++ n0
    if nlen = len ^^^ 0xFFFF ∧ len.toNat ≤ body.length then
      some ({ bytes := body.drop len.toNat, used := 0 }, (body.take len.toNat).reverse ++ out)
    else none
  | _ => none

/-- One block's data by its type BTYPE (RFC 1951 section 3.2.3); type 3 is an error. -/
def inflateBlock (fuel btype : Nat) (c : BitCursor) (out : Bytes) : Option (BitCursor × Bytes) :=
  if btype = 0 then inflateStored c out
  else if btype = 1 then
    match Huffman.ofLengths fixedLitLengths, Huffman.ofLengths fixedDistLengths with
    | some lit, some dist => inflateSymbols lit dist fuel c out
    | _, _ => none
  else if btype = 2 then
    match readCodes c with
    | none => none
    | some (lit, dist, c) => inflateSymbols lit dist fuel c out
  else none

/-- Blocks up to the one with BFINAL = 1; each takes at least three bits, so `fuel` need not pass the number of bits. -/
def inflateBlocks (symFuel : Nat) : Nat → BitCursor → Bytes → Option (BitCursor × Bytes)
  | 0, _, _ => none
  | fuel + 1, c, out =>
    match c.bits 1 with
    | none => none
    | some (final, c) =>
      match c.bits 2 with
      | none => none
      | some (btype, c) =>
        match inflateBlock symFuel btype c out with
        | none => none
        | some (c, out) => if final = 1 then some (c, out) else inflateBlocks symFuel fuel c out

/-- The two header bytes of R94: method 8, window code at most 7, no preset dictionary, the check modulo 31. -/
def zlibHeaderOk (cmf flg : Byte) : Bool :=
  decide (cmf.toNat % 16 = 8) && decide (cmf.toNat / 16 ≤ 7) && !flg.getLsbD 5 &&
    decide ((cmf.toNat * 256 + flg.toNat) % 31 = 0)

/-- The data of one complete zlib stream with nothing after its Adler-32 trailer (R93 point 2, R94); none for any other
byte string. -/
def zlibDecode (z : Bytes) : Option Bytes :=
  match z with
  | cmf :: flg :: body =>
    if zlibHeaderOk cmf flg then
      match inflateBlocks (8 * body.length + 1) (8 * body.length + 1) { bytes := body, used := 0 } [] with
      | none => none
      | some (c, out) => if c.aligned = be32 (adler32 out.reverse) then some out.reverse else none
    else none
  | _ => none

end Sys2Proof.Machine
end

