-- ==== Sys2Proof/Machine/Encoder.lean ====
section
/-! DEFINITION. The scanline filter, the compressor parameter, the chunk framer and ENCODE (42_encoder.md). -/

namespace Sys2Proof.Machine

/-- `SIG`, the 8-byte signature (R90). -/
def fileSignature : Bytes := [0x89, 0x50, 0x4E, 0x47, 0x0D, 0x0A, 0x1A, 0x0A]

/-- `IHDR_PAYLOAD` (R91): width, height, depth 8, colour type 6, three zeros. -/
def ihdrPayload (c : Config) : Bytes :=
  be32 (BitVec.ofNat 32 c.width) ++ be32 (BitVec.ofNat 32 c.height) ++ [8, 6, 0, 0, 0]

/-- The rows of a byte string of `n` rows of `k` bytes, each behind the filter byte 0 (R92). -/
def filterRows (k : Nat) : Nat → Bytes → Bytes
  | 0, _ => []
  | n + 1, s => 0 :: (s.take k ++ filterRows k n (s.drop k))

/-- The scanline stream `S` of the current canvas (R92). -/
def scanStream (s : State) : Bytes :=
  filterRows (s.cfg.width * 4) s.cfg.height (Memory.span 0 0 s.cfg.canvasBytes s.canvas)

/-- `ZCOMPRESS` (R93). `stored` is R95's; `failing` always fails. `chip` is what the chip's compressor answers where that meets point 2 of the law,
and `none` (failure, point 3) where it does not: every function that meets the law is such a one
(notes/assumptions/10.md). -/
def zcompress (c : Compressor) (s : Bytes) : Option Bytes :=
  match c with
  | .stored => some (storedStream s)
  | .failing => none
  | .chip =>
    match Config.chipCompress s with
    | none => none
    | some z => if zlibDecode z = some s then some z else none

/-- `Chunk(T, D)` (R96): the checksum covers the identifier and the payload, not the length. -/
def chunk (t d : Bytes) : Bytes := be32 (BitVec.ofNat 32 d.length) ++ t ++ d ++ be32 (crc32 (t ++ d))

/-- `IHDR` (R96). -/
def idIHDR : Bytes := [0x49, 0x48, 0x44, 0x52]

/-- `IDAT` (R96). -/
def idIDAT : Bytes := [0x49, 0x44, 0x41, 0x54]

/-- `IEND` (R96). -/
def idIEND : Bytes := [0x49, 0x45, 0x4E, 0x44]

/-- `FILE` for the compressed stream `z` (R97). -/
def pngFile (c : Config) (z : Bytes) : Bytes :=
  fileSignature ++ chunk idIHDR (ihdrPayload c) ++ chunk idIDAT z ++ chunk idIEND []

/-- ENCODE (R98): OUT and OUT_LEN get the file of the current canvas and `pc <- pc + 1`; where the compressor fails, or the
file is longer than OUT_CAP, OUT is void and the fault COMPRESS_FAIL or OUT_OVERFLOW is taken (R99). CRC_ACC, CANVAS and the
palette are not written (10_state.md R33). -/
def execEncode (s : State) : Host.Outcome State Fault Refusal :=
  .next
    (match zcompress s.cfg.compressor (scanStream s) with
    | none => raiseFault .compressFail (headerF0 .encode) (voidOut s)
    | some z =>
      if s.cfg.outCap < (pngFile s.cfg z).length then raiseFault .outOverflow (headerF0 .encode) (voidOut s)
      else advance 1 (putOut s (pngFile s.cfg z)))

end Sys2Proof.Machine
end

