-- ==== Sys2Proof/Machine/Raster.lean ====
section
/-! DEFINITION. The 2D rasterizer (41_raster.md): SetPixel, FillRect, FillCircle and the six drawing and palette commands.
A fill is made over the pixels of the canvas only, as R81 allows: a pixel is overwritten where the primitive's condition
holds of it. Sys2Proof/Safety.lean has the primitives as R80's loops. -/

namespace Sys2Proof.Machine

/-- Is (x, y) inside `[0,W) x [0,H)` (R77)? -/
def onCanvas (c : Config) (x y : Int) : Bool :=
  decide (0 ≤ x) && decide (x < c.width) && decide (0 ≤ y) && decide (y < c.height)

/-- The byte address of pixel (x, y) of the canvas (20_memory.md R44). -/
def pixelAddr (c : Config) (x y : Int) : Nat := (y.toNat * c.width + x.toNat) * 4

/-- `SetPixel` (R77): writes the four channels, or nothing where (x, y) is off the canvas. -/
def setPixel (x y : Int) (c : Rgba) (s : State) : State :=
  if onCanvas s.cfg x y then
    let p := pixelAddr s.cfg x y
    putCanvas (putCanvas (putCanvas (putCanvas s p c.r) (p + 1) c.g) (p + 2) c.b) (p + 3) c.a
  else s

/-- Overwrites every pixel of the canvas for which `shape` holds with `c` (R78: all four bytes, no blending). -/
def paint (shape : Int → Int → Bool) (c : Rgba) (s : State) : State :=
  { s with
    canvas := s.canvas.overlay (some 0)
      (fun a => if shape (a / 4 % s.cfg.width : Nat) (a / 4 / s.cfg.width : Nat) then some (channel c (a % 4)) else none)
      s.cfg.canvasBytes }

/-- The box `[x0, x0+w) x [y0, y0+h)` (R80). -/
def inBox (x0 y0 w h x y : Int) : Bool :=
  decide (x0 ≤ x) && decide (x < x0 + w) && decide (y0 ≤ y) && decide (y < y0 + h)

/-- The disc of FillCircle: the bounding square and the distance test, inclusive (R80, R86). -/
def inDisc (cx cy r x y : Int) : Bool :=
  decide (cx - r ≤ x) && decide (x ≤ cx + r) && decide (cy - r ≤ y) && decide (y ≤ cy + r) &&
    decide ((x - cx) * (x - cx) + (y - cy) * (y - cy) ≤ r * r)

/-- `FillRect` (R80); its colour gets alpha 255 (R79). -/
def fillRect (x0 y0 w h : Int) (c : Rgb) (s : State) : State := paint (inBox x0 y0 w h) (opaqueColour c) s

/-- `FillCircle` (R80); its colour gets alpha 255 (R79). -/
def fillCircle (cx cy r : Int) (c : Rgb) (s : State) : State := paint (inDisc cx cy r) (opaqueColour c) s

/-- The range that RRECT admits: `0 <= r`, `2r < w`, `2r < h` (R87). -/
def roundRectOk (w h r : Int) : Bool := decide (0 ≤ r) && decide (2 * r < w) && decide (2 * r < h)

/-- The five rectangles and four discs of RRECT, in R87's order. -/
def fillRoundRect (x0 y0 w h r : Int) (c : Rgb) (s : State) : State :=
  let s := fillRect (x0 + r) (y0 + r) (w - 2 * r) (h - 2 * r) c s
  let s := fillRect (x0 + r) y0 (w - 2 * r) r c s
  let s := fillRect (x0 + r) (y0 + h - r) (w - 2 * r) r c s
  let s := fillRect x0 (y0 + r) r (h - 2 * r) c s
  let s := fillRect (x0 + w - r) (y0 + r) r (h - 2 * r) c s
  let s := fillCircle (x0 + r) (y0 + r) r c s
  let s := fillCircle (x0 + w - 1 - r) (y0 + r) r c s
  let s := fillCircle (x0 + r) (y0 + h - 1 - r) r c s
  fillCircle (x0 + w - 1 - r) (y0 + h - 1 - r) r c s

/-- SETPAL: `reg(PAL_P) <- c`; `pc <- pc + 2` (R82). -/
def execSetpal (p : Pal) (c : Rgb) (s : State) : Host.Outcome State Fault Refusal := .next (advance 2 (putPal s p c))

/-- CLEAR: every canvas byte 0; `pc <- pc + 1` (R83). -/
def execClear (s : State) : Host.Outcome State Fault Refusal := .next (advance 1 (zeroCanvas s))

/-- PIXEL: one SetPixel with the packet's alpha; `pc <- pc + 3` (R84). -/
def execPixel (x y : Half) (c : Rgba) (s : State) : Host.Outcome State Fault Refusal :=
  .next (advance 3 (setPixel (sint16 x) (sint16 y) c s))

/-- RECT: one FillRect in the colour of PAL_P; `pc <- pc + 3` (R85). -/
def execRect (p : Pal) (x0 y0 w h : Half) (s : State) : Host.Outcome State Fault Refusal :=
  .next (advance 3 (fillRect (sint16 x0) (sint16 y0) (sint16 w) (sint16 h) (palColour s p) s))

/-- CIRCLE: one FillCircle in the colour of PAL_P; `pc <- pc + 3` (R86). -/
def execCircle (p : Pal) (cx cy r : Half) (s : State) : Host.Outcome State Fault Refusal :=
  .next (advance 3 (fillCircle (sint16 cx) (sint16 cy) (sint16 r) (palColour s p) s))

/-- RRECT (R87): outside the admitted range it takes the fault OPERAND_RANGE with nothing written; else the nine fills in
the colour of PAL_P and `pc <- pc + 4`. -/
def execRrect (p : Pal) (x0 y0 w h r : Half) (s : State) : Host.Outcome State Fault Refusal :=
  .next
    (if roundRectOk (sint16 w) (sint16 h) (sint16 r) then
      advance 4 (fillRoundRect (sint16 x0) (sint16 y0) (sint16 w) (sint16 h) (sint16 r) (palColour s p) s)
    else raiseFault .operandRange (headerFP .rrect p) s)

end Sys2Proof.Machine
end

