-- ==== Sys2Proof/Machine/Dispatch.lean ====
section
/-! DEFINITION. The meaning of each packet, one arm per constructor of Instr. -/

namespace Sys2Proof.Machine

def exec (i : Instr) (s : State) : Host.Outcome State Fault Refusal :=
  match i with
  | .nop => Sys2Proof.Machine.execNop s
  | .endRun => Sys2Proof.Machine.execEndRun s
  | .setpal p c => Sys2Proof.Machine.execSetpal p c s
  | .clear => Sys2Proof.Machine.execClear s
  | .pixel x y c => Sys2Proof.Machine.execPixel x y c s
  | .rect p x0 y0 w h => Sys2Proof.Machine.execRect p x0 y0 w h s
  | .circle p cx cy r => Sys2Proof.Machine.execCircle p cx cy r s
  | .rrect p x0 y0 w h r => Sys2Proof.Machine.execRrect p x0 y0 w h r s
  | .crcinit => Sys2Proof.Machine.execCrcinit s
  | .crcdata n data => Sys2Proof.Machine.execCrcdata n data s
  | .encode => Sys2Proof.Machine.execEncode s

end Sys2Proof.Machine
end

