-- ==== Sys2Proof/Machine/HostBus.lean ====
section
/-! DEFINITION. The host's transactions (20_memory.md R38 to R43; 10_state.md R10 to R28): the address map, what each offset
reads as, and what a write does. -/

namespace Sys2Proof.Machine

/-- The registers of R10. -/
inductive Reg where
  | id
  | cfgDim
  | cfgCmdw
  | cfgOutcap
  | ctrl
  | status
  | ie
  | pc
  | faultInfo
  | crcAcc
  | crcValue
  | outLen
  | pal (p : Pal)
deriving DecidableEq, Repr

/-- What an offset of the window is (20_memory.md R40). -/
inductive Target where
  | reg (r : Reg)
  /-- A word of CMD below CMD_WORDS (R41). -/
  | cmdWord (i : Nat)
  /-- Word `i` of the CANVAS window (R42). -/
  | canvasWord (i : Nat)
  /-- Word `k` of the OUT window (R43). -/
  | outWord (k : Nat)
  /-- Anything else: reads 0, ignores writes (R40, 10_state.md R13). -/
  | unmapped
deriving DecidableEq, Repr

/-- The register map: offset and register (10_state.md R10). -/
def regMap : List (Nat × Reg) :=
  [(0x000, .id), (0x004, .cfgDim), (0x008, .cfgCmdw), (0x00C, .cfgOutcap), (0x010, .ctrl), (0x014, .status), (0x018, .ie),
   (0x01C, .pc), (0x020, .faultInfo), (0x024, .crcAcc), (0x028, .crcValue), (0x02C, .outLen), (0x030, .pal .background),
   (0x034, .pal .accent), (0x038, .pal .highlight), (0x03C, .pal .shadow)]

/-- `off = (addr - BASE)[23:2] << 2` (20_memory.md R39). -/
def busOffset (addr : Word) : Nat := ((addr - Config.base).extractLsb' 2 22).toNat * 4

/-- The register at a word-aligned offset below 0x1000, if R10 lists one. -/
def regTarget (off : Nat) : Target :=
  match regMap.find? (fun e => e.1 == off) with
  | some e => .reg e.2
  | none => .unmapped

/-- The address map (R40). -/
def targetAt (c : Config) (off : Nat) : Target :=
  if off < 0x1000 then regTarget off
  else if off < 0x10000 then .unmapped
  else if off < 0x20000 then
    if (off - 0x10000) / 4 < c.cmdWords then .cmdWord ((off - 0x10000) / 4) else .unmapped
  else if off < 0x400000 then .unmapped
  else if off < 0x800000 then .canvasWord ((off - 0x400000) / 4)
  else if off < 0x1000000 then .outWord ((off - 0x800000) / 4)
  else .unmapped

/-- `ID` (10_state.md R16). -/
def idValue : Word := 0x504E4743

/-- What each register reads as while its value is exact (R16 to R28). -/
def regRead (s : State) : Reg → Word
  | .id => idValue
  | .cfgDim => BitVec.ofNat 16 s.cfg.height ++ BitVec.ofNat 16 s.cfg.width
  | .cfgCmdw => BitVec.ofNat 32 s.cfg.cmdWords
  | .cfgOutcap => BitVec.ofNat 32 s.cfg.outCap
  | .ctrl => 0
  | .status => s.status.toWord
  | .ie => s.ie.toWord
  | .pc => s.pc
  | .faultInfo => s.faultInfo
  | .crcAcc => s.crcAcc
  | .crcValue => crcValue s
  | .outLen => s.outLen
  | .pal p => (palColour s p).toWord

/-- The registers whose reads are `ANY` while BUSY = 1 (R10's column, R15). -/
def regVolatile : Reg → Bool
  | .id => false
  | .cfgDim => false
  | .cfgCmdw => false
  | .cfgOutcap => false
  | .ctrl => false
  | .status => false
  | .ie => false
  | .pc => true
  | .faultInfo => false
  | .crcAcc => true
  | .crcValue => true
  | .outLen => true
  | .pal _ => true

/-- Is a read of this target `ANY` while BUSY = 1 (R15)? The CANVAS and OUT windows are so as a whole
(notes/assumptions/21.md). -/
def targetVolatile : Target → Bool
  | .reg r => regVolatile r
  | .cmdWord _ => false
  | .canvasWord _ => true
  | .outWord _ => true
  | .unmapped => false

/-- What a target reads as while idle; `d` is the draw that stands for the bytes of OUT that are `ANY` (R41 to R43). -/
def targetRead (s : State) (d : Word) : Target → Word
  | .reg r => regRead s r
  | .cmdWord i => cmdWord s i
  | .canvasWord i => if i < s.cfg.pixels then packWord (fun j => canvasByte s (4 * i + j)) else 0
  | .outWord k => if 4 * k < s.cfg.outCap then packWord (fun j => outByte s d (4 * k + j)) else 0
  | .unmapped => 0

/-- What a host read of offset `off` returns, for the free value `d` (R15). -/
def readOffset (s : State) (d : Word) (off : Nat) : Word :=
  if s.status.busy && targetVolatile (targetAt s.cfg off) then d else targetRead s d (targetAt s.cfg off)

/-- A host read (R38): the word is put on the bus; nothing else of the block changes (R49). Each read has a draw of its own
(notes/assumptions/4.md). -/
def hostRead (addr : Word) (s : State) : State :=
  { s with readData := readOffset s (Config.anyWord s.draws) (busOffset addr), draws := s.draws + 1 }

/-- A busy-guarded write (10_state.md R14): dropped with BUSYERR <- 1 while BUSY = 1, else the state `t`. -/
def guarded (s t : State) : State :=
  if s.status.busy then { s with status := { s.status with busyErr := true } } else t

/-- A host write to CTRL (R20): SRST in bit 1, whatever BUSY is; else START in bit 0, busy-guarded. -/
def writeCtrl (data : Word) (s : State) : State :=
  if data.getLsbD 1 then softReset s else if data.getLsbD 0 then guarded s (startRun s) else s

/-- A host write to a register (R11, R12, R14, R20 to R23, R28). -/
def regWrite (data : Word) (s : State) : Reg → State
  | .id => s
  | .cfgDim => s
  | .cfgCmdw => s
  | .cfgOutcap => s
  | .ctrl => writeCtrl data s
  | .status => { s with status := s.status.clear data }
  | .ie => { s with ie := IrqEnable.ofWord data }
  | .pc => guarded s { s with pc := data }
  | .faultInfo => s
  | .crcAcc => s
  | .crcValue => s
  | .outLen => s
  | .pal p => guarded s (putPal s p (Rgb.ofWord data))

/-- A host write to a target (R41 to R43): CANVAS, OUT and unmapped offsets ignore it. -/
def targetWrite (data : Word) (s : State) : Target → State
  | .reg r => regWrite data s r
  | .cmdWord i => guarded s (putCmd s i data)
  | .canvasWord _ => s
  | .outWord _ => s
  | .unmapped => s

/-- A host write of `data` to offset `off`. -/
def writeOffset (data : Word) (off : Nat) (s : State) : State := targetWrite data s (targetAt s.cfg off)

/-- A host write (R38). -/
def hostWrite (addr data : Word) (s : State) : State := writeOffset data (busOffset addr) s

end Sys2Proof.Machine
end

