-- ==== Sys2Proof/Machine/Engine.lean ====
section
/-! DEFINITION. What each agent's move does: a packet step of the engine (43_control.md R101), the engine's step, a host
transaction, a hardware reset (00_scope.md R5). -/

namespace Sys2Proof.Machine

/-- A packet step (43_control.md R101): the packet at PC, or the fault that `CheckPacket` raises. -/
def packetStep (s : State) : Host.Outcome State Fault Refusal :=
  match decode (fetchPacket s) with
  | .ok (i, _) => exec i s
  | .error r => .next (raiseReject r s)

/-- The engine's step (R101): nothing while idle (60_exceptions.md R121), the reset clear if it is pending, else a packet. -/
def engineStep (s : State) : Host.Outcome State Fault Refusal :=
  if !s.status.busy then .next s else if s.clrPend then .next (resetClear s) else packetStep s

/-- The step of agent move `m`. -/
def moveStep (m : Move) (s : State) : Host.Outcome State Fault Refusal :=
  match m with
  | .hostRead addr => .next (hostRead addr s)
  | .hostWrite addr data => .next (hostWrite addr data s)
  | .hardReset => .next (hardReset s)
  | .engine => engineStep s

end Sys2Proof.Machine
end

