-- ==== Sys2Proof/Machine/Step.lean ====
section
/-! DEFINITION. One step of the machine: a step of the host, of the reset input or of the engine (00_scope.md R5). -/

namespace Sys2Proof.Machine

/-- One step: the first move of the agenda, or, where it is empty, the engine's (notes/assumptions/7.md). -/
def step (s : State) : Host.Outcome State Fault Refusal :=
  match s.agenda with
  | [] => engineStep s
  | m :: rest => moveStep m { s with agenda := rest }

/-- CMD words from index `i` on replaced by those of the list, as far as CMD goes; last one first (each then goes to the front
of a list that has nothing below it). -/
def State.withCmdWords (s : State) (i : Nat) (ws : List Word) : State :=
  match ws with
  | [] => s
  | w :: rest => if i < s.cfg.cmdWords then putCmd (State.withCmdWords s (i + 1) rest) i w else s

/-- `s` with the instruction whose bits are `w`, numbered as spec/opcode_table.json numbers them, in CMD at PC, and its next
step a packet step: BUSY set, no reset clear pending, no other agent's move before it (notes/assumptions/2.md). -/
def State.withFetchWord (s : State) (nbits w : Nat) : State :=
  { State.withCmdWords s s.pc.toNat (tableWords nbits w) with
    status := { s.status with busy := true }
    clrPend := false
    agenda := [] }

end Sys2Proof.Machine
end

