-- ==== Sys2Proof/Safety.lean ====
section
/-! DEFINITION. The terms in which claims about the block are stated: the invariant, the spec's own loops and predicates where
the machine computes the same in another way, `CheckPacket` as R109 writes it, and the reader of the output file (R100). -/

namespace Sys2Proof.Machine

/-! ### The invariant -/

/-- Every memory is in its canonical form and inside its size; OUT lists exactly its first OUT_LEN bytes, and OUT_LEN is at
most OUT_CAP (10_state.md R27, R29 to R31). -/
def State.memoryOk (s : State) : Bool :=
  Memory.wf (some 0) s.cfg.canvasBytes s.canvas && Memory.wf none s.cfg.cmdWords s.cmd &&
    Memory.wf none s.outLen.toNat s.out && (s.out.length == s.outLen.toNat) && decide (s.outLen.toNat ≤ s.cfg.outCap)

/-- The STATUS bits that can stand together: DONE and FAULT not both, neither of them while BUSY (60_exceptions.md R114,
10_state.md R20); FCODE is 0 exactly while FAULT is 0 (R21); CLR_PEND only while BUSY (R34). -/
def State.statusOk (s : State) : Bool :=
  !(s.status.done && s.status.fault) && !(s.status.busy && (s.status.done || s.status.fault)) &&
    (s.status.fault == decide (s.status.fcode ≠ .none)) && (!s.clrPend || s.status.busy)

/-- The invariant of the block. -/
def State.Inv (s : State) : Bool := s.memoryOk && s.statusOk

/-- The engine moves next, and it runs a packet: no other agent's move before it, BUSY = 1, no reset clear pending (R101). -/
def State.runsPacket (s : State) : Bool := s.agenda.isEmpty && s.status.busy && !s.clrPend

/-! ### The canvas by pixels -/

/-- Pixel (x, y) of the canvas (20_memory.md R44). -/
def pixelAt (s : State) (x y : Int) : Rgba :=
  let p := pixelAddr s.cfg x y
  { r := canvasByte s p, g := canvasByte s (p + 1), b := canvasByte s (p + 2), a := canvasByte s (p + 3) }

/-- The bytes of the canvas in order. -/
def canvasList (s : State) : Bytes := (List.range s.cfg.canvasBytes).map (canvasByte s)

/-- The `n` integers from `lo` on: `for v in lo .. lo+n-1` (00_scope.md section 6). -/
def intsFrom (lo : Int) (n : Nat) : List Int := (List.range n).map (fun k => lo + (k : Int))

/-- FillRect as R80 writes it: SetPixel in two loops. -/
def fillRectLoop (x0 y0 w h : Int) (c : Rgb) (s : State) : State :=
  (intsFrom y0 h.toNat).foldl
    (fun s y => (intsFrom x0 w.toNat).foldl (fun s x => setPixel x y (opaqueColour c) s) s) s

/-- FillCircle as R80 writes it: SetPixel in two loops over the bounding square, under the distance test. -/
def fillCircleLoop (cx cy r : Int) (c : Rgb) (s : State) : State :=
  (intsFrom (cy - r) (2 * r + 1).toNat).foldl
    (fun s y => (intsFrom (cx - r) (2 * r + 1).toNat).foldl
      (fun s x =>
        if (x - cx) * (x - cx) + (y - cy) * (y - cy) ≤ r * r then setPixel x y (opaqueColour c) s else s) s) s

/-- `cxs` and `cys` of R88: the corner disc's centre coordinate on one axis, if the coordinate is in a corner band. -/
def cornerCentre (v0 len r v : Int) : Option Int :=
  if v < v0 + r then some (v0 + r) else if v0 + len - r ≤ v then some (v0 + len - 1 - r) else none

/-- `written(x, y)` of R88: the pixels of a rounded rectangle. -/
def inRoundRect (x0 y0 w h r x y : Int) : Bool :=
  inBox x0 y0 w h x y &&
    match cornerCentre x0 w r x, cornerCentre y0 h r y with
    | some cx, some cy => decide ((x - cx) * (x - cx) + (y - cy) * (y - cy) ≤ r * r)
    | _, _ => true

/-! ### The palette's offsets -/

/-- The offset of each palette register (10_state.md R28). -/
def palOffset : Pal → Nat
  | .background => 0x030
  | .accent => 0x034
  | .highlight => 0x038
  | .shadow => 0x03C

/-! ### CRCDATA's bytes and the checksum table -/

/-- Data byte `k` of a CRCDATA packet as R60 numbers it: byte `k mod 4` of data word `k div 4`. -/
def dataByte (data : List Word) (k : Nat) : Byte := byteOf (data.getD (k / 4) 0) (k % 4)

/-- R73, rows 0x00 to 0x38. -/
def crcTableValues0 : List Word :=
  [0x00000000, 0x77073096, 0xEE0E612C, 0x990951BA, 0x076DC419, 0x706AF48F, 0xE963A535, 0x9E6495A3,
   0x0EDB8832, 0x79DCB8A4, 0xE0D5E91E, 0x97D2D988, 0x09B64C2B, 0x7EB17CBD, 0xE7B82D07, 0x90BF1D91,
   0x1DB71064, 0x6AB020F2, 0xF3B97148, 0x84BE41DE, 0x1ADAD47D, 0x6DDDE4EB, 0xF4D4B551, 0x83D385C7,
   0x136C9856, 0x646BA8C0, 0xFD62F97A, 0x8A65C9EC, 0x14015C4F, 0x63066CD9, 0xFA0F3D63, 0x8D080DF5,
   0x3B6E20C8, 0x4C69105E, 0xD56041E4, 0xA2677172, 0x3C03E4D1, 0x4B04D447, 0xD20D85FD, 0xA50AB56B,
   0x35B5A8FA, 0x42B2986C, 0xDBBBC9D6, 0xACBCF940, 0x32D86CE3, 0x45DF5C75, 0xDCD60DCF, 0xABD13D59,
   0x26D930AC, 0x51DE003A, 0xC8D75180, 0xBFD06116, 0x21B4F4B5, 0x56B3C423, 0xCFBA9599, 0xB8BDA50F,
   0x2802B89E, 0x5F058808, 0xC60CD9B2, 0xB10BE924, 0x2F6F7C87, 0x58684C11, 0xC1611DAB, 0xB6662D3D]

/-- R73, rows 0x40 to 0x78. -/
def crcTableValues1 : List Word :=
  [0x76DC4190, 0x01DB7106, 0x98D220BC, 0xEFD5102A, 0x71B18589, 0x06B6B51F, 0x9FBFE4A5, 0xE8B8D433,
   0x7807C9A2, 0x0F00F934, 0x9609A88E, 0xE10E9818, 0x7F6A0DBB, 0x086D3D2D, 0x91646C97, 0xE6635C01,
   0x6B6B51F4, 0x1C6C6162, 0x856530D8, 0xF262004E, 0x6C0695ED, 0x1B01A57B, 0x8208F4C1, 0xF50FC457,
   0x65B0D9C6, 0x12B7E950, 0x8BBEB8EA, 0xFCB9887C, 0x62DD1DDF, 0x15DA2D49, 0x8CD37CF3, 0xFBD44C65,
   0x4DB26158, 0x3AB551CE, 0xA3BC0074, 0xD4BB30E2, 0x4ADFA541, 0x3DD895D7, 0xA4D1C46D, 0xD3D6F4FB,
   0x4369E96A, 0x346ED9FC, 0xAD678846, 0xDA60B8D0, 0x44042D73, 0x33031DE5, 0xAA0A4C5F, 0xDD0D7CC9,
   0x5005713C, 0x270241AA, 0xBE0B1010, 0xC90C2086, 0x5768B525, 0x206F85B3, 0xB966D409, 0xCE61E49F,
   0x5EDEF90E, 0x29D9C998, 0xB0D09822, 0xC7D7A8B4, 0x59B33D17, 0x2EB40D81, 0xB7BD5C3B, 0xC0BA6CAD]

/-- R73, rows 0x80 to 0xB8. -/
def crcTableValues2 : List Word :=
  [0xEDB88320, 0x9ABFB3B6, 0x03B6E20C, 0x74B1D29A, 0xEAD54739, 0x9DD277AF, 0x04DB2615, 0x73DC1683,
   0xE3630B12, 0x94643B84, 0x0D6D6A3E, 0x7A6A5AA8, 0xE40ECF0B, 0x9309FF9D, 0x0A00AE27, 0x7D079EB1,
   0xF00F9344, 0x8708A3D2, 0x1E01F268, 0x6906C2FE, 0xF762575D, 0x806567CB, 0x196C3671, 0x6E6B06E7,
   0xFED41B76, 0x89D32BE0, 0x10DA7A5A, 0x67DD4ACC, 0xF9B9DF6F, 0x8EBEEFF9, 0x17B7BE43, 0x60B08ED5,
   0xD6D6A3E8, 0xA1D1937E, 0x38D8C2C4, 0x4FDFF252, 0xD1BB67F1, 0xA6BC5767, 0x3FB506DD, 0x48B2364B,
   0xD80D2BDA, 0xAF0A1B4C, 0x36034AF6, 0x41047A60, 0xDF60EFC3, 0xA867DF55, 0x316E8EEF, 0x4669BE79,
   0xCB61B38C, 0xBC66831A, 0x256FD2A0, 0x5268E236, 0xCC0C7795, 0xBB0B4703, 0x220216B9, 0x5505262F,
   0xC5BA3BBE, 0xB2BD0B28, 0x2BB45A92, 0x5CB36A04, 0xC2D7FFA7, 0xB5D0CF31, 0x2CD99E8B, 0x5BDEAE1D]

/-- R73, rows 0xC0 to 0xF8. -/
def crcTableValues3 : List Word :=
  [0x9B64C2B0, 0xEC63F226, 0x756AA39C, 0x026D930A, 0x9C0906A9, 0xEB0E363F, 0x72076785, 0x05005713,
   0x95BF4A82, 0xE2B87A14, 0x7BB12BAE, 0x0CB61B38, 0x92D28E9B, 0xE5D5BE0D, 0x7CDCEFB7, 0x0BDBDF21,
   0x86D3D2D4, 0xF1D4E242, 0x68DDB3F8, 0x1FDA836E, 0x81BE16CD, 0xF6B9265B, 0x6FB077E1, 0x18B74777,
   0x88085AE6, 0xFF0F6A70, 0x66063BCA, 0x11010B5C, 0x8F659EFF, 0xF862AE69, 0x616BFFD3, 0x166CCF45,
   0xA00AE278, 0xD70DD2EE, 0x4E048354, 0x3903B3C2, 0xA7672661, 0xD06016F7, 0x4969474D, 0x3E6E77DB,
   0xAED16A4A, 0xD9D65ADC, 0x40DF0B66, 0x37D83BF0, 0xA9BCAE53, 0xDEBB9EC5, 0x47B2CF7F, 0x30B5FFE9,
   0xBDBDF21C, 0xCABAC28A, 0x53B39330, 0x24B4A3A6, 0xBAD03605, 0xCDD70693, 0x54DE5729, 0x23D967BF,
   0xB3667A2E, 0xC4614AB8, 0x5D681B02, 0x2A6F2B94, 0xB40BBE37, 0xC30C8EA1, 0x5A05DF1B, 0x2D02EF8D]

/-- The table of R73. -/
def crcTableValues : List Word := crcTableValues0 ++ crcTableValues1 ++ crcTableValues2 ++ crcTableValues3

/-! ### CheckPacket -/

/-- The operand tests of `CheckPacket` for a packet at `pc` (60_exceptions.md R109, its last four lines). -/
def checkOperands (s : State) (pc : Nat) (op : Op) : Option FaultCode :=
  if op = .setpal && (cmdWord s (pc + 1)).extractLsb' 24 8 != 0 then some .reservedField
  else if op = .circle && (cmdWord s (pc + 2)).extractLsb' 16 16 != 0 then some .reservedField
  else if op = .rrect && (cmdWord s (pc + 3)).extractLsb' 16 16 != 0 then some .reservedField
  else if op = .rrect &&
      !roundRectOk (sint16 (lowHalf (cmdWord s (pc + 2)))) (sint16 (highHalf (cmdWord s (pc + 2))))
        (sint16 (lowHalf (cmdWord s (pc + 3)))) then some .operandRange
  else none

/-- `CheckPacket(pc)` as R109 writes it, over CMD: the fault code and FAULT_INFO of the first failing test. -/
def checkPacket (s : State) (pc : Nat) : Option (FaultCode × Word) :=
  if s.cfg.cmdWords ≤ pc then some (.cmdBounds, 0)
  else
    match opOf? (opField (cmdWord s pc)) with
    | none => some (.illegalOpcode, cmdWord s pc)
    | some op =>
      if cmdWord s pc &&& op.headerMask ≠ op.headerMatch then some (.reservedField, cmdWord s pc)
      else if s.cfg.cmdWords < pc + op.length (cmdWord s pc) then some (.cmdBounds, cmdWord s pc)
      else (checkOperands s pc op).map (fun code => (code, cmdWord s pc))

/-! ### A reader of the output file -/

/-- The first `len(f)` bytes of OUT as the host reads them, for a draw `d` of whatever is `ANY` (20_memory.md R43). -/
def outList (s : State) (d : Word) : Bytes := (List.range s.outLen.toNat).map (outByte s d)

/-- The number that four big-endian bytes are. -/
def be32Value (b : Bytes) : Nat := b.foldl (fun v x => v * 256 + x.toNat) 0

/-- One chunk whose checksum matches R96: identifier, payload, and what follows it. -/
def readChunk (f : Bytes) : Option (Bytes × Bytes × Bytes) :=
  let len := be32Value (f.take 4)
  let t := (f.drop 4).take 4
  let d := (f.drop 8).take len
  if f.length < 12 + len then none
  else if (f.drop (8 + len)).take 4 = be32 (crc32 (t ++ d)) then some (t, d, f.drop (12 + len)) else none

/-- Undoes filter 0 on `n` rows of `k` bytes (R92, R100). -/
def unfilterRows (k : Nat) : Nat → Bytes → Option Bytes
  | 0, s => if s = [] then some [] else none
  | n + 1, s =>
    match s with
    | [] => none
    | x :: rest =>
      if x = 0 ∧ k ≤ rest.length then (unfilterRows k n (rest.drop k)).map (fun t => rest.take k ++ t) else none

/-- What a standard reader makes of an output file (R100): width, height and the rows' channel bytes. -/
def readFile (f : Bytes) : Option (Nat × Nat × Bytes) :=
  if f.take 8 ≠ fileSignature then none
  else
    match readChunk (f.drop 8) with
    | none => none
    | some (t1, ihdr, f1) =>
      match readChunk f1 with
      | none => none
      | some (t2, z, f2) =>
        match readChunk f2 with
        | none => none
        | some (t3, e, f3) =>
          let w := be32Value (ihdr.take 4)
          let h := be32Value ((ihdr.drop 4).take 4)
          if t1 = idIHDR ∧ ihdr.drop 8 = [8, 6, 0, 0, 0] ∧ t2 = idIDAT ∧ t3 = idIEND ∧ e = [] ∧ f3 = [] then
            match zlibDecode z with
            | none => none
            | some s => (unfilterRows (w * 4) h s).map (fun t => (w, h, t))
          else none

end Sys2Proof.Machine
end

