-- ==== Sys2Proof/Certificates/Slice0/Obligations.lean ====
section
/-! DEFINITION. The statements for the provers, from the numbered rules of spec/. `OBLIGATIONS.json` lists them; each
docstring names the rules it formalises. `t = { s with … := t.… }` says that every field not named is unchanged. -/

open Sys2Proof Sys2Proof.Machine

/-! ### Encoding -/

/-- Decoding the words of a well-formed packet gives it back, whatever words follow (R57 to R62). -/
def Obligations.DecodeOfEncodeIsThePacket : Prop :=
  ∀ (i : Instr) (rest : List Word), i.wellFormed = true → decode (encode i ++ rest) = .ok (i, rest)

/-- Accepted words have one meaning: what decodes to a packet is that packet's encoding, and the packet is well formed (R64's
reason: every accepted word's meaning is unique). -/
def Obligations.DecodedWordsAreThePacketsEncoding : Prop :=
  ∀ (ws : List Word) (i : Instr) (rest : List Word), decode ws = .ok (i, rest) →
    i.wellFormed = true ∧ encode i ++ rest = ws

/-- One list of words for each command, built by hand from its assembly form and field layout (R66, R59, R60), decodes to that
command. -/
def Obligations.DecodeReadsTheWordsOfEachForm : Prop :=
  decode [0x00000000] = .ok (.nop, []) ∧
  decode [0x00000001] = .ok (.endRun, []) ∧
  decode [0x00000102, 0x003264C8] = .ok (.setpal .accent { r := 200, g := 100, b := 50 }, []) ∧
  decode [0x00000003] = .ok (.clear, []) ∧
  decode [0x00000010, 0xFFFFFFFF, 0x04030201] = .ok (.pixel 0xFFFF 0xFFFF { r := 1, g := 2, b := 3, a := 4 }, []) ∧
  decode [0x00000111, 0x00000001, 0x00010002] = .ok (.rect .accent 1 0 2 1, []) ∧
  decode [0x00000212, 0x00010001, 0x00007FFF] = .ok (.circle .highlight 1 1 32767, []) ∧
  decode [0x00000313, 0xFFFFFFFE, 0x00040006, 0x00000001] = .ok (.rrect .shadow 0xFFFE 0xFFFF 6 4 1, []) ∧
  decode [0x00000020] = .ok (.crcinit, []) ∧
  decode [0x00050021, 0x38373635, 0x00000039] = .ok (.crcdata 5 [0x38373635, 0x00000039], []) ∧
  decode [0x00000030] = .ok (.encode, [])

/-- A header that meets a mnemonic's mask and match meets no other's, and its OP byte is that mnemonic's (R61). -/
def Obligations.HeaderSelectsOneMnemonic : Prop :=
  ∀ (hdr : Word) (a b : Op), hdr &&& a.headerMask = a.headerMatch →
    opField hdr = a.code ∧ (hdr &&& b.headerMask = b.headerMatch → a = b)

/-! ### The step -/

/-- Where the words at PC decode to a packet, the engine's step is that packet's meaning (R101). -/
def Obligations.StepRunsTheDecodedPacket : Prop :=
  ∀ (s : State) (i : Instr) (rest : List Word), s.runsPacket = true → decode (fetchPacket s) = .ok (i, rest) →
    step s = exec i s

/-- Where CMD holds a well-formed packet's words from PC on, the engine's step is that packet's meaning (R57, R101). -/
def Obligations.StepRunsThePacketInCmd : Prop :=
  ∀ (s : State) (i : Instr), s.runsPacket = true → i.wellFormed = true →
    s.pc.toNat + (encode i).length ≤ s.cfg.cmdWords →
    (∀ k, k < (encode i).length → cmdWord s (s.pc.toNat + k) = (encode i).getD k 0) →
    step s = exec i s

/-- The engine's packet step is `CheckPacket` in the order of R109 and then the packet: the first failing test is the fault
taken; where none fails the packet with the header at PC runs, and of those only an ENCODE can still fault (R109). -/
def Obligations.StepIsCheckPacketThenThePacket : Prop :=
  ∀ (s : State), s.runsPacket = true →
    match checkPacket s s.pc.toNat with
    | some (code, info) => step s = .next (raiseFault code info s)
    | none => ∃ (i : Instr) (rest : List Word), decode (fetchPacket s) = .ok (i, rest) ∧
        i.header = cmdWord s s.pc.toNat ∧ step s = exec i s ∧
        (∀ t, step s = .next t → s.status.fault = false → t.status.fault = true → i = .encode)

/-- An OP byte outside R61's map faults ILLEGAL_OPCODE with the header, and nothing else changes (R63). -/
def Obligations.IllegalOpcodeFaults : Prop :=
  ∀ (s : State), s.runsPacket = true → s.pc.toNat < s.cfg.cmdWords →
    (let op := (opField (cmdWord s s.pc.toNat)).toNat
     (0x04 ≤ op ∧ op ≤ 0x0F) ∨ (0x14 ≤ op ∧ op ≤ 0x1F) ∨ (0x22 ≤ op ∧ op ≤ 0x2F) ∨ 0x31 ≤ op) →
    step s = .next
      { s with
        status := { s.status with busy := false, fault := true, fcode := .illegalOpcode }
        faultInfo := cmdWord s s.pc.toNat }

/-- A reserved bit that is 1 faults RESERVED_FIELD with the header and changes nothing else: in the header of any mnemonic, in an
RGB word, in a RAD word, the operand words being looked at when the packet fits (R109). The words of a CRCDATA are never checked:
whatever its data and padding, it runs (R64). -/
def Obligations.ReservedBitFaults : Prop :=
  ∀ (s : State) (op : Op), s.runsPacket = true → s.pc.toNat < s.cfg.cmdWords →
    opField (cmdWord s s.pc.toNat) = op.code →
    ((cmdWord s s.pc.toNat &&& op.headerMask ≠ op.headerMatch ∨
        (s.pc.toNat + op.length (cmdWord s s.pc.toNat) ≤ s.cfg.cmdWords ∧
          ((op = .setpal ∧ (cmdWord s (s.pc.toNat + 1)).extractLsb' 24 8 ≠ 0) ∨
            (op = .circle ∧ (cmdWord s (s.pc.toNat + 2)).extractLsb' 16 16 ≠ 0) ∨
            (op = .rrect ∧ (cmdWord s (s.pc.toNat + 3)).extractLsb' 16 16 ≠ 0)))) →
      step s = .next
        { s with
          status := { s.status with busy := false, fault := true, fcode := .reservedField }
          faultInfo := cmdWord s s.pc.toNat }) ∧
    (op = .crcdata → cmdWord s s.pc.toNat &&& op.headerMask = op.headerMatch →
      s.pc.toNat + op.length (cmdWord s s.pc.toNat) ≤ s.cfg.cmdWords →
      step s = exec (.crcdata (highHalf (cmdWord s s.pc.toNat))
        ((List.range (dataWords (highHalf (cmdWord s s.pc.toNat)).toNat)).map
          (fun k => cmdWord s (s.pc.toNat + 1 + k)))) s)

/-- A fetch at or past CMD_WORDS faults CMD_BOUNDS with FAULT_INFO = 0, PC kept (R102, R109). -/
def Obligations.FetchPastCmdFaults : Prop :=
  ∀ (s : State), s.runsPacket = true → s.cfg.cmdWords ≤ s.pc.toNat →
    step s = .next
      { s with
        status := { s.status with busy := false, fault := true, fcode := .cmdBounds }
        faultInfo := 0 }

/-- The engine does nothing while idle (R121). That there is such a step is the model's reading (notes/assumptions/13.md). -/
def Obligations.IdleEngineKeepsState : Prop :=
  ∀ (s : State), s.agenda = [] → s.status.busy = false → step s = .next s

/-- The moves of the agenda are taken in their order, each by its agent. A host read puts on the bus what its address's offset
reads as, takes one draw and changes nothing else; a host write is the write at its address's offset; a reset is the hardware
reset. An engine move before other moves does what the engine does where no other move is to come, and leaves those moves to come
(R5, R38, R39, R49, R51, R101). The agenda, the read data and the draws are the model's own fields (notes/assumptions/4.md, 7.md,
8.md). -/
def Obligations.AgendaMovesAreTakenInOrder : Prop :=
  ∀ (s : State) (rest : List Move) (addr data : Word),
    (s.agenda = .hostRead addr :: rest →
      step s = .next
        { s with
          agenda := rest
          readData := readOffset s (Config.anyWord s.draws) (busOffset addr)
          draws := s.draws + 1 }) ∧
    (s.agenda = .hostWrite addr data :: rest →
      step s = .next (writeOffset data (busOffset addr) { s with agenda := rest })) ∧
    (s.agenda = .hardReset :: rest → step s = .next (hardReset { s with agenda := rest })) ∧
    (s.agenda = .engine :: rest →
      ∃ t, step { s with agenda := [] } = .next t ∧ t.agenda = [] ∧ step s = .next { t with agenda := rest })

/-! ### Commands -/

/-- NOP changes PC only (R105). -/
def Obligations.NopOnlyAdvancesPc : Prop :=
  ∀ (s : State), exec .nop s = .next { s with pc := s.pc + 1 }

/-- END advances PC, clears BUSY and sets DONE; nothing else changes (R106). -/
def Obligations.EndStopsTheRun : Prop :=
  ∀ (s : State), exec .endRun s =
    .next { s with pc := s.pc + 1, status := { s.status with busy := false, done := true } }

/-- SETPAL writes one palette entry, which then reads as the RGB word; the other three, and all else but PC, are unchanged
(R82). -/
def Obligations.SetpalWritesOneEntry : Prop :=
  ∀ (p : Pal) (c : Rgb) (s : State), ∃ t, exec (.setpal p c) s = .next t ∧
    regRead t (.pal p) = (0 : Byte) ++ c.b ++ c.g ++ c.r ∧
    (∀ q, q ≠ p → regRead t (.pal q) = regRead s (.pal q)) ∧
    t = { s with pc := s.pc + 2, pal := t.pal }

/-- CLEAR makes every canvas byte 0 and advances PC; nothing else changes (R83). -/
def Obligations.ClearZeroesTheCanvas : Prop :=
  ∀ (s : State), ∃ t, exec .clear s = .next t ∧ (∀ a, canvasByte t a = 0) ∧
    t = { s with pc := s.pc + 1, canvas := t.canvas }

/-- PIXEL writes its four channels at its pixel and changes no byte outside it; off the canvas it changes PC only
(R84, R77). -/
def Obligations.PixelWritesOnePixel : Prop :=
  ∀ (x y : Half) (c : Rgba) (s : State), ∃ t, exec (.pixel x y c) s = .next t ∧
    (onCanvas s.cfg (sint16 x) (sint16 y) = true → pixelAt t (sint16 x) (sint16 y) = c) ∧
    (∀ a, a < pixelAddr s.cfg (sint16 x) (sint16 y) ∨ pixelAddr s.cfg (sint16 x) (sint16 y) + 4 ≤ a →
      canvasByte t a = canvasByte s a) ∧
    (onCanvas s.cfg (sint16 x) (sint16 y) = false → t = { s with pc := s.pc + 3 }) ∧
    t = { s with pc := s.pc + 3, canvas := t.canvas }

/-- RECT paints exactly the canvas pixels of `[x0, x0+w) x [y0, y0+h)` in the palette colour with alpha 255; all else but PC
is unchanged (R85, R79). -/
def Obligations.RectPaintsItsBox : Prop :=
  ∀ (p : Pal) (x0 y0 w h : Half) (s : State), ∃ t, exec (.rect p x0 y0 w h) s = .next t ∧
    (∀ x y : Int, onCanvas s.cfg x y = true →
      pixelAt t x y =
        if (sint16 x0 ≤ x ∧ x < sint16 x0 + sint16 w) ∧ (sint16 y0 ≤ y ∧ y < sint16 y0 + sint16 h) then
          { r := (palColour s p).r, g := (palColour s p).g, b := (palColour s p).b, a := 255 }
        else pixelAt s x y) ∧
    (∀ a, s.cfg.canvasBytes ≤ a → canvasByte t a = canvasByte s a) ∧
    t = { s with pc := s.pc + 3, canvas := t.canvas }

/-- CIRCLE paints exactly the canvas pixels with `|x-cx| <= r`, `|y-cy| <= r` and squared distance at most `r^2`, inclusive, in
the palette colour with alpha 255; all else but PC is unchanged (R86, R79, R89). -/
def Obligations.CirclePaintsItsDisc : Prop :=
  ∀ (p : Pal) (cx cy r : Half) (s : State), ∃ t, exec (.circle p cx cy r) s = .next t ∧
    (∀ x y : Int, onCanvas s.cfg x y = true →
      pixelAt t x y =
        if |x - sint16 cx| ≤ sint16 r ∧ |y - sint16 cy| ≤ sint16 r ∧
            (x - sint16 cx) ^ 2 + (y - sint16 cy) ^ 2 ≤ sint16 r ^ 2 then
          { r := (palColour s p).r, g := (palColour s p).g, b := (palColour s p).b, a := 255 }
        else pixelAt s x y) ∧
    (∀ a, s.cfg.canvasBytes ≤ a → canvasByte t a = canvasByte s a) ∧
    t = { s with pc := s.pc + 3, canvas := t.canvas }

/-- An admitted RRECT, the composition of five rectangles and four discs, paints exactly the canvas pixels of R88's set in the
palette colour with alpha 255; all else but PC is unchanged (R87, R88). -/
def Obligations.RrectPaintsTheRoundedBox : Prop :=
  ∀ (p : Pal) (x0 y0 w h r : Half) (s : State),
    0 ≤ sint16 r → 2 * sint16 r < sint16 w → 2 * sint16 r < sint16 h →
    ∃ t, exec (.rrect p x0 y0 w h r) s = .next t ∧
      (∀ x y : Int, onCanvas s.cfg x y = true →
        pixelAt t x y =
          if inRoundRect (sint16 x0) (sint16 y0) (sint16 w) (sint16 h) (sint16 r) x y then
            { r := (palColour s p).r, g := (palColour s p).g, b := (palColour s p).b, a := 255 }
          else pixelAt s x y) ∧
      (∀ a, s.cfg.canvasBytes ≤ a → canvasByte t a = canvasByte s a) ∧
      t = { s with pc := s.pc + 4, canvas := t.canvas }

/-- An RRECT outside `0 <= r`, `2r < w`, `2r < h` faults OPERAND_RANGE with its header and writes nothing (R87). -/
def Obligations.RrectOutOfRangeFaults : Prop :=
  ∀ (p : Pal) (x0 y0 w h r : Half) (s : State),
    ¬ (0 ≤ sint16 r ∧ 2 * sint16 r < sint16 w ∧ 2 * sint16 r < sint16 h) →
    exec (.rrect p x0 y0 w h r) s = .next
      { s with
        status := { s.status with busy := false, fault := true, fcode := .operandRange }
        faultInfo := Instr.header (.rrect p x0 y0 w h r) }

/-- CRCINIT sets CRC_ACC to all ones, so that CRC_VALUE reads 0; nothing else but PC changes (R74). -/
def Obligations.CrcinitSetsAllOnes : Prop :=
  ∀ (s : State), ∃ t, exec .crcinit s = .next t ∧ t = { s with pc := s.pc + 1, crcAcc := 0xFFFFFFFF } ∧
    regRead t .crcValue = 0

/-- CRCDATA runs CrcUpdate over its N data bytes, byte k being byte `k mod 4` of data word `k div 4`, and advances PC by
`1 + ceil(N/4)`; nothing else changes (R75, R60). -/
def Obligations.CrcdataUpdatesTheAccumulator : Prop :=
  ∀ (n : Half) (data : List Word) (s : State), data.length = (n.toNat + 3) / 4 →
    exec (.crcdata n data) s = .next
      { s with
        pc := s.pc + BitVec.ofNat 32 (1 + (n.toNat + 3) / 4)
        crcAcc := crcUpdate s.crcAcc ((List.range n.toNat).map (dataByte data)) }

/-- ENCODE, where the compressor succeeds and the file fits, puts the file in OUT and its length in OUT_LEN; nothing else but
PC changes (R98, R97). -/
def Obligations.EncodeWritesTheFile : Prop :=
  ∀ (s : State) (z : Bytes), zcompress s.cfg.compressor (scanStream s) = some z →
    (pngFile s.cfg z).length ≤ s.cfg.outCap →
    ∃ t, exec .encode s = .next t ∧ (regRead t .outLen).toNat = (pngFile s.cfg z).length ∧
      (∀ d, outList t d = pngFile s.cfg z) ∧
      t = { s with pc := s.pc + 1, out := t.out, outLen := t.outLen }

/-- A failed ENCODE leaves no partial output: OUT_LEN is 0, every byte of OUT is free, and the fault is COMPRESS_FAIL where the
compressor fails and OUT_OVERFLOW where the file is too long, PC kept; nothing else changes (R99, R98, R110). -/
def Obligations.FailedEncodeLeavesNoOutput : Prop :=
  ∀ (s : State) (code : FaultCode),
    (zcompress s.cfg.compressor (scanStream s) = none ∧ code = .compressFail) ∨
      (∃ z, zcompress s.cfg.compressor (scanStream s) = some z ∧ s.cfg.outCap < (pngFile s.cfg z).length ∧
        code = .outOverflow) →
    ∃ t, exec .encode s = .next t ∧ (∀ d a, outByte t d a = byteOf d (a % 4)) ∧
      t = { s with
        out := t.out
        outLen := 0
        status := { s.status with busy := false, fault := true, fcode := code }
        faultInfo := 0x00000030 }

/-! ### The checksum -/

/-- The check values of the algorithm: the empty input and "123456789" (R71; 95_test_vectors.md S1, S2). -/
def Obligations.ChecksumKnownValues : Prop :=
  crc32 [] = 0 ∧ crc32 [0x31, 0x32, 0x33, 0x34, 0x35, 0x36, 0x37, 0x38, 0x39] = 0xCBF43926

/-- The table built by R69 is the table R73 prints. -/
def Obligations.ChecksumTableIsTheSpecsTable : Prop :=
  (List.range 256).map (fun n => crcTable (BitVec.ofNat 8 n)) = crcTableValues

/-- The splitting law, and so two CRCDATA packets with nothing between them accumulate what one over their bytes concatenated
would (R72). -/
def Obligations.ChecksumSplits : Prop :=
  (∀ (acc : Word) (a b : Bytes), crcUpdate acc (a ++ b) = crcUpdate (crcUpdate acc a) b) ∧
  (∀ (s : State) (n m : Half) (x y : List Word), x.length = dataWords n.toNat → y.length = dataWords m.toNat →
    ∃ t u, exec (.crcdata n x) s = .next t ∧ exec (.crcdata m y) t = .next u ∧
      u.crcAcc = crcUpdate s.crcAcc
        ((List.range n.toNat).map (dataByte x) ++ (List.range m.toNat).map (dataByte y)))

/-- The table-driven step of R70 is eight rounds of R69's shift register with the byte exclusive-or'd into its low end. -/
def Obligations.TableStepIsEightSerialRounds : Prop :=
  ∀ (acc : Word) (b : Byte), crcStep acc b = crcRounds 8 (acc ^^^ b.setWidth 32)

/-! ### The rasterizer's loops -/

/-- FillRect over the canvas is R80's double loop of SetPixel over the whole box (R80, R81). -/
def Obligations.FillRectIsTheSpecsLoop : Prop :=
  ∀ (x0 y0 w h : Int) (c : Rgb) (s : State), s.memoryOk = true →
    fillRect x0 y0 w h c s = fillRectLoop x0 y0 w h c s

/-- FillCircle over the canvas is R80's double loop over the bounding square with its distance test (R80, R81). -/
def Obligations.FillCircleIsTheSpecsLoop : Prop :=
  ∀ (cx cy r : Int) (c : Rgb) (s : State), s.memoryOk = true →
    fillCircle cx cy r c s = fillCircleLoop cx cy r c s

/-! ### The encoder -/

/-- The scanline stream: each row is the filter byte 0 and the row's `W*4` canvas bytes in order; its length is
`H * (1 + 4*W)` (R92). -/
def Obligations.ScanStreamIsTheFilteredRows : Prop :=
  ∀ (s : State), s.memoryOk = true →
    scanStream s =
      (List.range s.cfg.height).flatMap
        (fun y => 0 :: (List.range (s.cfg.width * 4)).map (fun j => canvasByte s (y * s.cfg.width * 4 + j))) ∧
    (scanStream s).length = s.cfg.height * (1 + 4 * s.cfg.width)

/-- The length of STORED's stream (R95). -/
def Obligations.StoredStreamLength : Prop :=
  ∀ (s : Bytes), (storedStream s).length = 2 + 5 * max 1 ((s.length + 65534) / 65535) + s.length + 4

/-- STORED meets point 2 of the law of ZCOMPRESS: its stream is one zlib stream of its input (R93, R94, R95). The
inflater is the model's (notes/assumptions/11.md). -/
def Obligations.StoredStreamInflatesToItsInput : Prop :=
  ∀ (s : Bytes), zlibDecode (storedStream s) = some s

/-- The law of ZCOMPRESS, point 2, for every compressor of the model (R93; how a chip's is held to it: notes/assumptions/10.md,
11.md). -/
def Obligations.CompressedStreamInflatesToTheInput : Prop :=
  ∀ (c : Compressor) (s z : Bytes), zcompress c s = some z → zlibDecode z = some s

/-- The file's layout: signature, IHDR, IDAT with the compressed stream, IEND, 57 bytes and the stream; the IEND chunk and the
128 by 128 instance's IHDR chunk byte for byte (R97, R90). -/
def Obligations.FileIsSignatureAndThreeChunks : Prop :=
  (∀ (c : Config) (z : Bytes),
    pngFile c z =
      [0x89, 0x50, 0x4E, 0x47, 0x0D, 0x0A, 0x1A, 0x0A] ++ chunk idIHDR (ihdrPayload c) ++ chunk idIDAT z ++
        chunk idIEND [] ∧
    (pngFile c z).length = 57 + z.length) ∧
  chunk idIHDR (ihdrPayload Config.thisInstance) =
    [0x00, 0x00, 0x00, 0x0D, 0x49, 0x48, 0x44, 0x52, 0x00, 0x00, 0x00, 0x80, 0x00, 0x00, 0x00, 0x80, 0x08, 0x06, 0x00, 0x00,
     0x00, 0xC3, 0x3E, 0x61, 0xCB] ∧
  chunk idIEND [] = [0x00, 0x00, 0x00, 0x00, 0x49, 0x45, 0x4E, 0x44, 0xAE, 0x42, 0x60, 0x82]

/-- The bit-exact round trip: after a successful ENCODE a reader of the first OUT_LEN bytes of OUT finds a sound file of the
canvas's width, height and bytes (R100). The reader's inflater is the model's (notes/assumptions/11.md). -/
def Obligations.EncodedFileReadsBackAsTheCanvas : Prop :=
  ∀ (s : State) (z : Bytes), s.memoryOk = true → zcompress s.cfg.compressor (scanStream s) = some z →
    (pngFile s.cfg z).length ≤ s.cfg.outCap →
    ∃ t, exec .encode s = .next t ∧
      ∀ d, readFile (outList t d) = some (s.cfg.width, s.cfg.height, canvasList s)

/-! ### The host's transactions -/

/-- BASE is aligned to 16 MiB, and an address in the block's window selects the aligned word that holds it (R39). -/
def Obligations.BusAddressSelectsTheAlignedWord : Prop :=
  Config.base.extractLsb' 0 24 = 0 ∧
  ∀ (off : Nat), off < 0x1000000 → busOffset (Config.base + BitVec.ofNat 32 off) = off / 4 * 4

/-- Unlisted register offsets and unused regions read 0 and ignore writes, and the read-only registers ID, CFG_*, FAULT_INFO,
CRC_ACC, CRC_VALUE and OUT_LEN ignore writes, busy or not and without BUSYERR (R12, R13). -/
def Obligations.UnlistedAndReadOnlyOffsetsIgnoreWrites : Prop :=
  ∀ (s : State) (d data : Word) (off : Nat),
    ((0x40 ≤ off ∧ off < 0x10000) ∨ (0x10000 + 4 * s.cfg.cmdWords ≤ off ∧ off < 0x400000) →
      readOffset s d off = 0 ∧ writeOffset data off s = s) ∧
    (off ∈ [0x000, 0x004, 0x008, 0x00C, 0x020, 0x024, 0x028, 0x02C] → writeOffset data off s = s)

/-- While BUSY, writes to PC, PAL0..PAL3, CMD words and CTRL with START and without SRST are dropped and set BUSYERR; writes
to IE, to STATUS and to CTRL with SRST are not guarded (R14). -/
def Obligations.BusyGuardDropsWrites : Prop :=
  ∀ (s : State) (data : Word) (off : Nat), s.status.busy = true →
    ((off ∈ [0x01C, 0x030, 0x034, 0x038, 0x03C] ∨ (∃ i, i < s.cfg.cmdWords ∧ off = 0x10000 + 4 * i) ∨
        (off = 0x010 ∧ data.getLsbD 0 = true ∧ data.getLsbD 1 = false)) →
      writeOffset data off s = { s with status := { s.status with busyErr := true } }) ∧
    writeOffset data 0x018 s = { s with ie := IrqEnable.ofWord data } ∧
    writeOffset data 0x014 s = { s with status := s.status.clear data } ∧
    (data.getLsbD 1 = true → writeOffset data 0x010 s = softReset s)

/-- While BUSY, reads of PC, CRC_ACC, CRC_VALUE, OUT_LEN, PAL0..PAL3 and of the CANVAS and OUT windows return a free value;
reads of ID, CFG_*, STATUS, IE, FAULT_INFO and CMD words are exact at all times; a read puts the word on the bus, takes its draw
and changes nothing else (R15). That a busy read past the canvas or past OUT_CAP is free too, where R42 and R43 say 0, is the
model's reading (notes/assumptions/21.md); the read data and the draws are the model's own fields (notes/assumptions/4.md, 8.md). -/
def Obligations.VolatileReadsAreFreeOthersExact : Prop :=
  ∀ (s : State) (d : Word),
    (s.status.busy = true → ∀ off,
      off ∈ [0x01C, 0x024, 0x028, 0x02C, 0x030, 0x034, 0x038, 0x03C] ∨ (0x400000 ≤ off ∧ off < 0x1000000) →
      readOffset s d off = d) ∧
    readOffset s d 0x000 = 0x504E4743 ∧
    readOffset s d 0x004 = BitVec.ofNat 32 (s.cfg.height * 65536 + s.cfg.width) ∧
    readOffset s d 0x008 = BitVec.ofNat 32 s.cfg.cmdWords ∧
    readOffset s d 0x00C = BitVec.ofNat 32 s.cfg.outCap ∧
    readOffset s d 0x014 = s.status.toWord ∧
    readOffset s d 0x018 = s.ie.toWord ∧
    readOffset s d 0x020 = s.faultInfo ∧
    (∀ i, i < s.cfg.cmdWords → readOffset s d (0x10000 + 4 * i) = cmdWord s i) ∧
    (∀ addr, hostRead addr s =
      { s with readData := readOffset s (Config.anyWord s.draws) (busOffset addr), draws := s.draws + 1 })

/-- CTRL: it reads 0; START while idle clears DONE, FAULT, FCODE and FAULT_INFO and sets BUSY, and changes nothing else; START while
busy is dropped; SRST is a soft reset, with START or without; any other word does nothing (R20). -/
def Obligations.CtrlStartsOrResets : Prop :=
  ∀ (s : State) (data d : Word),
    readOffset s d 0x010 = 0 ∧
    (data.getLsbD 1 = true → writeOffset data 0x010 s = softReset s) ∧
    (data.getLsbD 1 = false → data.getLsbD 0 = true → s.status.busy = false →
      writeOffset data 0x010 s =
        { s with
          status := { busy := true, done := false, fault := false, busyErr := s.status.busyErr, fcode := .none }
          faultInfo := 0 }) ∧
    (data.getLsbD 1 = false → data.getLsbD 0 = true → s.status.busy = true →
      writeOffset data 0x010 s = { s with status := { s.status with busyErr := true } }) ∧
    (data.getLsbD 1 = false → data.getLsbD 0 = false → writeOffset data 0x010 s = s)

/-- A host write to STATUS clears each of DONE, FAULT and BUSYERR that it writes as 1 and leaves the others; clearing FAULT
clears FCODE; BUSY and the reserved bits are not written (R21). -/
def Obligations.StatusIsWriteOneToClear : Prop :=
  ∀ (s : State) (data : Word),
    let old := regRead s .status
    let new := regRead (writeOffset data 0x014 s) .status
    new.getLsbD 0 = old.getLsbD 0 ∧
    (∀ k, 1 ≤ k → k ≤ 3 → new.getLsbD k = (old.getLsbD k && !data.getLsbD k)) ∧
    new.extractLsb' 8 4 = (if data.getLsbD 2 then 0 else old.extractLsb' 8 4) ∧
    (∀ k, (4 ≤ k ∧ k ≤ 7) ∨ 12 ≤ k → new.getLsbD k = false) ∧
    writeOffset data 0x014 s = { s with status := (writeOffset data 0x014 s).status }

/-- What the offsets of R10's volatile registers read while idle, and writes to PC, IE and the palette. While idle, offset
0x01C reads PC, 0x024 CRC_ACC, 0x028 CRC_ACC with every bit inverted, 0x02C OUT_LEN, and 0x030, 0x034, 0x038, 0x03C the
palette entries background, accent, highlight, shadow. While idle, PC holds any word written to 0x01C, and a palette entry
holds bits 23:0 of a word written to its offset, the other entries as before. At any time IE holds bits 3:1 of a word written
to 0x018. No such write changes anything else (R10, R22, R23, R25 to R28). -/
def Obligations.WritableRegistersReadBack : Prop :=
  ∀ (s : State) (data d : Word) (p : Pal),
    (s.status.busy = false →
      readOffset s d 0x01C = s.pc ∧
      readOffset s d 0x024 = s.crcAcc ∧
      readOffset s d 0x028 = s.crcAcc ^^^ 0xFFFFFFFF ∧
      readOffset s d 0x02C = s.outLen ∧
      readOffset s d 0x030 = (0 : Byte) ++ s.pal.background.b ++ s.pal.background.g ++ s.pal.background.r ∧
      readOffset s d 0x034 = (0 : Byte) ++ s.pal.accent.b ++ s.pal.accent.g ++ s.pal.accent.r ∧
      readOffset s d 0x038 = (0 : Byte) ++ s.pal.highlight.b ++ s.pal.highlight.g ++ s.pal.highlight.r ∧
      readOffset s d 0x03C = (0 : Byte) ++ s.pal.shadow.b ++ s.pal.shadow.g ++ s.pal.shadow.r) ∧
    (s.status.busy = false →
      readOffset (writeOffset data 0x01C s) d 0x01C = data ∧ writeOffset data 0x01C s = { s with pc := data }) ∧
    (readOffset (writeOffset data 0x018 s) d 0x018 = data &&& 0x0000000E ∧
      writeOffset data 0x018 s = { s with ie := (writeOffset data 0x018 s).ie }) ∧
    (s.status.busy = false →
      readOffset (writeOffset data (palOffset p) s) d (palOffset p) = data &&& 0x00FFFFFF ∧
      (∀ q, q ≠ p →
        readOffset (writeOffset data (palOffset p) s) d (palOffset q) = readOffset s d (palOffset q)) ∧
      writeOffset data (palOffset p) s = { s with pal := (writeOffset data (palOffset p) s).pal })

/-- The CMD window: a read is exact at all times; an idle write to a word of CMD is read back, and changes no other word and
nothing else; a write while BUSY is dropped and sets BUSYERR; past CMD_WORDS the window reads 0 and ignores writes (R41). -/
def Obligations.CmdWindowReadsBack : Prop :=
  ∀ (s : State) (d data : Word) (i : Nat),
    (i < s.cfg.cmdWords → readOffset s d (0x10000 + 4 * i) = cmdWord s i ∧
      (s.status.busy = false →
        readOffset (writeOffset data (0x10000 + 4 * i) s) d (0x10000 + 4 * i) = data ∧
        (∀ j, j ≠ i → cmdWord (writeOffset data (0x10000 + 4 * i) s) j = cmdWord s j) ∧
        writeOffset data (0x10000 + 4 * i) s = { s with cmd := (writeOffset data (0x10000 + 4 * i) s).cmd }) ∧
      (s.status.busy = true →
        writeOffset data (0x10000 + 4 * i) s = { s with status := { s.status with busyErr := true } })) ∧
    (s.cfg.cmdWords ≤ i → i < 0x4000 →
      readOffset s d (0x10000 + 4 * i) = 0 ∧ writeOffset data (0x10000 + 4 * i) s = s)

/-- The CANVAS window: while idle word `i` is pixel `(i mod W, i div W)`, R in its low byte and A in its high one, and 0 past
the canvas; while BUSY it is free; writes have no effect (R42). -/
def Obligations.CanvasWindowIsPixelWords : Prop :=
  ∀ (s : State) (d data : Word) (i : Nat), i < 0x100000 →
    (s.status.busy = false → i < s.cfg.width * s.cfg.height →
      readOffset s d (0x400000 + 4 * i) =
        (let q := pixelAt s (i % s.cfg.width : Nat) (i / s.cfg.width : Nat)
         q.a ++ q.b ++ q.g ++ q.r)) ∧
    (s.status.busy = false → s.cfg.width * s.cfg.height ≤ i → readOffset s d (0x400000 + 4 * i) = 0) ∧
    (s.status.busy = true → readOffset s d (0x400000 + 4 * i) = d) ∧
    writeOffset data (0x400000 + 4 * i) s = s

/-- The OUT window: while idle byte `j` of word `k` is OUT byte `4k + j` below OUT_LEN and free at or past it, and the word is 0
past OUT_CAP; while BUSY it is free; writes have no effect (R43). -/
def Obligations.OutWindowIsLittleEndian : Prop :=
  ∀ (s : State) (d data : Word) (k : Nat), k < 0x200000 →
    (s.status.busy = false → 4 * k < s.cfg.outCap → ∀ j, j < 4 →
      byteOf (readOffset s d (0x800000 + 4 * k)) j =
        if 4 * k + j < s.outLen.toNat then outByte s d (4 * k + j) else byteOf d j) ∧
    (s.status.busy = false → s.cfg.outCap ≤ 4 * k → readOffset s d (0x800000 + 4 * k) = 0) ∧
    (s.status.busy = true → readOffset s d (0x800000 + 4 * k) = d) ∧
    writeOffset data (0x800000 + 4 * k) s = s

/-- The interrupt line is STATUS and IE bit by bit, DONE, FAULT and BUSYERR (R113). -/
def Obligations.IrqIsEnabledStatus : Prop :=
  ∀ (s : State),
    irq s =
      (((regRead s .status).getLsbD 1 && (regRead s .ie).getLsbD 1) ||
        ((regRead s .status).getLsbD 2 && (regRead s .ie).getLsbD 2) ||
        ((regRead s .status).getLsbD 3 && (regRead s .ie).getLsbD 3))

/-! ### Reset -/

/-- A soft reset, by a write of CTRL with SRST set, whatever BUSY and START are: the values of R122, CMD kept, OUT free
(R123). -/
def Obligations.SoftResetLeavesTheResetValues : Prop :=
  ∀ (s : State) (data d : Word), data.getLsbD 1 = true →
    let t := writeOffset data 0x010 s
    regRead t .pc = 0 ∧ regRead t .ie = 0 ∧ regRead t .faultInfo = 0 ∧ regRead t .crcAcc = 0xFFFFFFFF ∧
    regRead t .crcValue = 0 ∧ regRead t .outLen = 0 ∧ (∀ p, regRead t (.pal p) = 0) ∧
    regRead t .status = 0x00000001 ∧ t.clrPend = true ∧ irq t = false ∧
    (∀ a, outByte t d a = byteOf d (a % 4)) ∧ (∀ i, cmdWord t i = cmdWord s i)

/-- A hardware reset leaves the registers at their reset values, CLR_PEND set, every byte of OUT free and every word of CMD free
(R122). The form of CMD's free value is the model's (notes/assumptions/3.md). -/
def Obligations.HardResetLeavesTheResetValues : Prop :=
  ∀ (s : State) (rest : List Move) (d : Word), s.agenda = .hardReset :: rest →
    ∃ t, step s = .next t ∧
      regRead t .pc = 0 ∧ regRead t .ie = 0 ∧ regRead t .faultInfo = 0 ∧ regRead t .crcAcc = 0xFFFFFFFF ∧
      regRead t .crcValue = 0 ∧ regRead t .outLen = 0 ∧ (∀ p, regRead t (.pal p) = 0) ∧
      regRead t .status = 0x00000001 ∧ t.clrPend = true ∧
      (∀ a, outByte t d a = byteOf d (a % 4)) ∧ (∀ i, cmdWord t i = Config.powerUpWord (s.cmdEpoch + 1) i)

/-- Every reset sets CLR_PEND and BUSY; while CLR_PEND is set the engine's one step is the reset clear: the canvas becomes 0,
CLR_PEND and BUSY 0, DONE is not set, and nothing else changes (R34). -/
def Obligations.ResetClearZeroesTheCanvas : Prop :=
  (∀ (s : State), (softReset s).clrPend = true ∧ (softReset s).status.busy = true ∧ (hardReset s).clrPend = true ∧
    (hardReset s).status.busy = true) ∧
  ∀ (s : State), s.agenda = [] → s.status.busy = true → s.clrPend = true →
    ∃ t, step s = .next t ∧ (∀ a, canvasByte t a = 0) ∧
      t = { s with canvas := t.canvas, clrPend := false, status := { s.status with busy := false } }

/-- R124's list for the 128 by 128 instance, in both states. Right after a hardware reset: what the exact registers read as, the
values that the volatile registers hold, every volatile read free (CANVAS among them), CLR_PEND set, OUT and CMD free, `irq` 0.
After the reset clear: what each of the sixteen registers reads as, every byte of CANVAS 0, CLR_PEND clear, OUT free, CMD as
before, `irq` 0; and the engine, left to itself, then does nothing. That the reset clear is the first step, and that the idle
engine has a step at all, rest on the model's empty agenda at reset and its reading of the idle step (notes/assumptions/7.md,
13.md); the form of CMD's free value is the model's (notes/assumptions/3.md), and so is the reading that a busy read past the
canvas or past OUT_CAP is free too (notes/assumptions/21.md). -/
def Obligations.ResetStateReadsAsListed : Prop :=
  ∀ (d : Word),
    (∀ e ∈ ([(0x000, 0x504E4743), (0x004, 0x00800080), (0x008, 0x00001000), (0x00C, 0x00020000), (0x010, 0), (0x014, 0x00000001),
        (0x018, 0), (0x020, 0)] : List (Nat × Word)), readOffset State.reset d e.1 = e.2) ∧
    (∀ e ∈ ([(.pc, 0), (.crcAcc, 0xFFFFFFFF), (.crcValue, 0), (.outLen, 0), (.pal .background, 0), (.pal .accent, 0),
        (.pal .highlight, 0), (.pal .shadow, 0)] : List (Reg × Word)), regRead State.reset e.1 = e.2) ∧
    (∀ off, off ∈ [0x01C, 0x024, 0x028, 0x02C, 0x030, 0x034, 0x038, 0x03C] ∨ (0x400000 ≤ off ∧ off < 0x1000000) →
      readOffset State.reset d off = d) ∧
    State.reset.clrPend = true ∧ irq State.reset = false ∧
    (∀ a, outByte State.reset d a = byteOf d (a % 4)) ∧
    (∃ n, ∀ i, cmdWord State.reset i = Config.powerUpWord n i) ∧
    ∃ t, step State.reset = .next t ∧
      (∀ e ∈ ([(0x000, 0x504E4743), (0x004, 0x00800080), (0x008, 0x00001000), (0x00C, 0x00020000), (0x010, 0), (0x014, 0),
          (0x018, 0), (0x01C, 0), (0x020, 0), (0x024, 0xFFFFFFFF), (0x028, 0), (0x02C, 0), (0x030, 0), (0x034, 0),
          (0x038, 0), (0x03C, 0)] : List (Nat × Word)), readOffset t d e.1 = e.2) ∧
      t.clrPend = false ∧ irq t = false ∧ (∀ a, canvasByte t a = 0) ∧
      (∀ a, outByte t d a = byteOf d (a % 4)) ∧
      (∀ i, cmdWord t i = cmdWord State.reset i) ∧
      step t = .next t

/-! ### Whole-machine rules -/

/-- Every step keeps the invariant: memories canonical and inside their sizes, OUT_LEN at most OUT_CAP with exactly its bytes
listed, DONE and FAULT never both, neither while BUSY, FCODE 0 exactly while FAULT is 0, CLR_PEND only while BUSY
(R27, R29 to R31, R34, R114). -/
def Obligations.StepKeepsTheInvariant : Prop :=
  ∀ (s t : State), s.Inv = true → step s = .next t → t.Inv = true

/-- The state after reset meets the invariant. -/
def Obligations.ResetMeetsTheInvariant : Prop := State.reset.Inv = true

/-- No step changes the parameters, so the CFG_* registers are constant (R17 to R19, R36). -/
def Obligations.NoStepChangesTheParameters : Prop :=
  ∀ (s t : State), step s = .next t → t.cfg = s.cfg

/-- What each command may write: only CRCINIT and CRCDATA write CRC_ACC; only ENCODE writes OUT and OUT_LEN; only SETPAL
writes the palette; only the drawing commands and CLEAR write CANVAS; only END, RRECT and ENCODE write STATUS, only RRECT
and ENCODE FAULT_INFO; none writes CMD, IE or CLR_PEND (R25, R27, R29 to R31). -/
def Obligations.EachCommandWritesOnlyItsState : Prop :=
  ∀ (i : Instr) (s t : State), exec i s = .next t →
    t.cmd = s.cmd ∧ t.cmdEpoch = s.cmdEpoch ∧ t.ie = s.ie ∧ t.clrPend = s.clrPend ∧ t.cfg = s.cfg ∧
    t.agenda = s.agenda ∧ t.readData = s.readData ∧ t.draws = s.draws ∧
    (i.op ∉ [.crcinit, .crcdata] → t.crcAcc = s.crcAcc) ∧
    (i.op ≠ .encode → t.out = s.out ∧ t.outLen = s.outLen) ∧
    (i.op ≠ .setpal → t.pal = s.pal) ∧
    (i.op ∉ [.clear, .pixel, .rect, .circle, .rrect] → t.canvas = s.canvas) ∧
    (i.op ∉ [.endRun, .rrect, .encode] → t.status = s.status) ∧
    (i.op ∉ [.rrect, .encode] → t.faultInfo = s.faultInfo)

/-- CMD cannot change during a run: whatever the host or the engine does while BUSY, short of a hardware reset, every word of
CMD is as before (R54). -/
def Obligations.CmdIsFixedDuringARun : Prop :=
  ∀ (s t : State), s.status.busy = true → s.agenda.head? ≠ some .hardReset → step s = .next t →
    ∀ i, cmdWord t i = cmdWord s i

/-- A packet step that does not fault moves PC past its packet, without wrapping and never past CMD_WORDS; one that faults
keeps PC (R102, R110). -/
def Obligations.PacketStepMovesPcByItsLength : Prop :=
  ∀ (s t : State), s.runsPacket = true → s.status.fault = false → step s = .next t →
    (t.status.fault = false →
      t.pc.toNat = s.pc.toNat + packetLen (cmdWord s s.pc.toNat) ∧ t.pc.toNat ≤ s.cfg.cmdWords) ∧
    (t.status.fault = true → t.pc = s.pc)

/-- Faults are precise: a packet step that faults ends the run and leaves all state but STATUS and FAULT_INFO as it was, but
for OUT and OUT_LEN after a failed ENCODE (R110). -/
def Obligations.FaultsArePrecise : Prop :=
  ∀ (s t : State), s.runsPacket = true → s.status.fault = false → step s = .next t → t.status.fault = true →
    t.status.busy = false ∧ t.status.done = s.status.done ∧ t.status.busyErr = s.status.busyErr ∧
    t.status.fcode ≠ .none ∧
    (t = { s with status := t.status, faultInfo := t.faultInfo } ∨
      ((t.status.fcode = .compressFail ∨ t.status.fcode = .outOverflow) ∧ t.faultInfo = 0x00000030 ∧
        t = { s with status := t.status, faultInfo := t.faultInfo, out := [], outLen := 0 }))

/-- Every run ends: left to itself the engine is idle after at most CMD_WORDS + 1 packet steps, with DONE or FAULT set
(R104). -/
def Obligations.EveryRunEnds : Prop :=
  ∀ (s : State), s.runsPacket = true →
    ∃ k t, k ≤ s.cfg.cmdWords + 1 ∧ Host.Core.run core k s = .next t ∧ t.status.busy = false ∧
      (t.status.done = true ∨ t.status.fault = true)
end

