-- ==== Sys2Proof/Laws/Decode.lean ====
section
/-! SUPPORT. The laws of decoding: what each field of an encoded word is, what the opcode map gives, and what `decode` answers. -/

namespace Sys2Proof

/-! ### Fields of words -/

theorem extract_append_low {v w : Nat} (x : BitVec v) (y : BitVec w) : (x ++ y).extractLsb' 0 w = y := by
  apply BitVec.eq_of_getLsbD_eq
  intro i hi
  simp [BitVec.getLsbD_append, hi]

theorem extract_append_high {v w : Nat} (x : BitVec v) (y : BitVec w) (start len : Nat) (h : w ≤ start) :
    (x ++ y).extractLsb' start len = x.extractLsb' (start - w) len := BitVec.extractLsb'_append_eq_of_le h

theorem extract_all {w : Nat} (x : BitVec w) : x.extractLsb' 0 w = x := BitVec.extractLsb'_eq_self

@[simp] theorem lowHalf_pairWord (lo hi : Half) : lowHalf (pairWord lo hi) = lo := extract_append_low hi lo

@[simp] theorem highHalf_pairWord (lo hi : Half) : highHalf (pairWord lo hi) = hi :=
  (extract_append_high hi lo 16 16 (Nat.le_refl _)).trans (extract_all hi)

/-- The four bytes of a word put together from bytes. -/
theorem byteOf_append (b3 b2 b1 b0 : Byte) :
    byteOf (b3 ++ b2 ++ b1 ++ b0) 0 = b0 ∧ byteOf (b3 ++ b2 ++ b1 ++ b0) 1 = b1 ∧
    byteOf (b3 ++ b2 ++ b1 ++ b0) 2 = b2 ∧ byteOf (b3 ++ b2 ++ b1 ++ b0) 3 = b3 :=
  ⟨extract_append_low (b3 ++ b2 ++ b1) b0,
   (extract_append_high (b3 ++ b2 ++ b1) b0 8 8 (by decide)).trans (extract_append_low (b3 ++ b2) b1),
   ((extract_append_high (b3 ++ b2 ++ b1) b0 16 8 (by decide)).trans
      (extract_append_high (b3 ++ b2) b1 8 8 (by decide))).trans (extract_append_low b3 b2),
   (((extract_append_high (b3 ++ b2 ++ b1) b0 24 8 (by decide)).trans
      (extract_append_high (b3 ++ b2) b1 16 8 (by decide))).trans
      (extract_append_high b3 b2 8 8 (by decide))).trans (extract_all b3)⟩

@[simp] theorem lowHalf_radWord (r : Half) : lowHalf (radWord r) = r := lowHalf_pairWord r 0

@[simp] theorem highHalf_radWord (r : Half) : highHalf (radWord r) = 0 := highHalf_pairWord r 0

@[simp] theorem Rgba.ofWord_toWord (c : Rgba) : Rgba.ofWord c.toWord = c := by
  obtain ⟨r, g, b, a⟩ := c
  obtain ⟨h0, h1, h2, h3⟩ := byteOf_append a b g r
  simp only [Rgba.ofWord, Rgba.toWord, h0, h1, h2, h3]

@[simp] theorem Rgb.ofWord_toWord (c : Rgb) : Rgb.ofWord c.toWord = c := by
  have h := Rgba.ofWord_toWord { r := c.r, g := c.g, b := c.b, a := 0 }
  simp only [Rgba.ofWord, Rgba.mk.injEq] at h
  obtain ⟨h0, h1, h2, -⟩ := h
  simp only [Rgb.ofWord]
  cases c
  simp only [Rgb.mk.injEq]
  exact ⟨h0, h1, h2⟩

@[simp] theorem rgbReservedOk_toWord (c : Rgb) : rgbReservedOk c.toWord = true := by
  have h := Rgba.ofWord_toWord { r := c.r, g := c.g, b := c.b, a := 0 }
  simp only [Rgba.ofWord, Rgba.mk.injEq] at h
  simp only [rgbReservedOk, beq_iff_eq]
  exact h.2.2.2

@[simp] theorem radReservedOk_radWord (r : Half) : radReservedOk (radWord r) = true := by simp [radReservedOk]

/-! ### Words from their fields -/

theorem append_extract {v w : Nat} (x : BitVec (v + w)) : x.extractLsb' w v ++ x.extractLsb' 0 w = x := by
  apply BitVec.eq_of_getLsbD_eq
  intro i hi
  rw [BitVec.getLsbD_append]
  by_cases h : i < w
  · simp [h]
  · simp [h, show i - w < v by omega, show w + (i - w) = i by omega]

@[simp] theorem pairWord_halves (w : Word) : pairWord (lowHalf w) (highHalf w) = w := append_extract (v := 16) (w := 16) w

@[simp] theorem Rgba.toWord_ofWord (w : Word) : (Rgba.ofWord w).toWord = w := by
  apply BitVec.eq_of_getLsbD_eq
  intro i hi
  have h : ∀ b3 b2 b1 b0 : Byte, (b3 ++ b2 ++ b1 ++ b0 : BitVec (8 + 8 + 8 + 8)).getLsbD i =
      if i < 8 then b0.getLsbD i else if i - 8 < 8 then b1.getLsbD (i - 8) else
        if i - 8 - 8 < 8 then b2.getLsbD (i - 8 - 8) else b3.getLsbD (i - 8 - 8 - 8) := by
    intro b3 b2 b1 b0
    rw [BitVec.getLsbD_append, BitVec.getLsbD_append, BitVec.getLsbD_append]
  refine (h _ _ _ _).trans ?_
  simp only [Rgba.ofWord, byteOf, BitVec.getLsbD_extractLsb']
  split
  · simp_all
  · split
    · simp_all [show 8 + (i - 8) = i by omega]
    · split
      · simp_all [show 16 + (i - 8 - 8) = i by omega]
      · simp_all [show 24 + (i - 8 - 8 - 8) = i by omega, show i - 8 - 8 - 8 < 8 by omega]

theorem Rgb.toWord_ofWord {w : Word} (h : rgbReservedOk w = true) : (Rgb.ofWord w).toWord = w := by
  have h3 : byteOf w 3 = 0 := by simpa [rgbReservedOk, byteOf] using h
  have hw := Rgba.toWord_ofWord w
  simp only [Rgba.ofWord, Rgba.toWord, h3] at hw
  exact hw

theorem radWord_lowHalf {w : Word} (h : radReservedOk w = true) : radWord (lowHalf w) = w := by
  have h1 : highHalf w = 0 := by simpa [radReservedOk] using h
  have hw := pairWord_halves w
  rw [h1] at hw
  exact hw

/-! ### Headers -/

@[simp] theorem Pal.ofBits_bits (p : Pal) : Pal.ofBits p.bits = p := by cases p <;> rfl

@[simp] theorem Pal.bits_ofBits (b : BitVec 2) : (Pal.ofBits b).bits = b := by revert b; decide

@[simp] theorem opOf?_code (op : Op) : opOf? op.code = some op := by cases op <;> rfl

/-- The opcode map gives a mnemonic exactly for its own OP byte. -/
theorem opOf?_eq_some {b : Byte} {op : Op} : opOf? b = some op ↔ op.code = b := by
  constructor
  · intro h
    have := List.find?_some h
    simpa using this
  · rintro rfl
    exact opOf?_code op

theorem opOf?_eq_none {b : Byte} : opOf? b = none ↔ ∀ op : Op, op.code ≠ b := by
  constructor
  · intro h op hop
    rw [← hop, opOf?_code] at h
    cases h
  · intro h
    cases hb : opOf? b with
    | none => rfl
    | some op => exact absurd (opOf?_eq_some.1 hb) (h op)

@[simp] theorem opField_headerF0 (op : Op) : opField (headerF0 op) = op.code := by cases op <;> rfl

@[simp] theorem opField_headerFP (op : Op) (p : Pal) : opField (headerFP op p) = op.code := by cases op <;> cases p <;> rfl

@[simp] theorem opField_headerFN (op : Op) (n : Half) : opField (headerFN op n) = op.code :=
  extract_append_low (n ++ (0 : Byte)) op.code

@[simp] theorem palField_headerFP (op : Op) (p : Pal) : palField (headerFP op p) = p := by cases op <;> cases p <;> rfl

@[simp] theorem highHalf_headerFN (op : Op) (n : Half) : highHalf (headerFN op n) = n :=
  ((extract_append_high (n ++ (0 : Byte)) op.code 16 16 (by decide)).trans
    (extract_append_high n (0 : Byte) 8 16 (by decide))).trans (extract_all n)

theorem headerF0_mask (op : Op) (h : op.headerMask = 0xFFFFFFFF) : headerF0 op &&& op.headerMask = op.headerMatch := by
  rw [h]; cases op <;> rfl

theorem headerFP_mask (op : Op) (p : Pal) (h : op.headerMask = 0xFFFFFCFF) :
    headerFP op p &&& op.headerMask = op.headerMatch := by
  rw [h]; cases op <;> cases p <;> rfl

theorem headerFN_mask (op : Op) (n : Half) (h : op.headerMask = 0x0000FFFF) :
    headerFN op n &&& op.headerMask = op.headerMatch := by
  have hc : headerFN op n = n ++ ((0 : Byte) ++ op.code) := BitVec.append_assoc ..
  have hm : op.headerMask = (0 : Half) ++ BitVec.allOnes 16 := h.trans (by decide)
  have hz : op.headerMatch = (0 : Half) ++ ((0 : Byte) ++ op.code) := by cases op <;> rfl
  have hl : ∀ x y : BitVec 16,
      (x ++ y : BitVec (16 + 16)) &&& ((0 : BitVec 16) ++ BitVec.allOnes 16) = (0 : BitVec 16) ++ y := by
    intro x y
    apply BitVec.eq_of_getLsbD_eq
    intro i hi
    rw [BitVec.getLsbD_and, BitVec.getLsbD_append, BitVec.getLsbD_append, BitVec.getLsbD_append, BitVec.getLsbD_allOnes]
    by_cases h : i < 16 <;> simp [h]
  rw [hc, hm, hz]
  exact hl n ((0 : Byte) ++ op.code)

/-- A header of format F0 is determined by its mask and match. -/
theorem headerF0_of_mask {hdr : Word} {op : Op} (hm : op.headerMask = 0xFFFFFFFF)
    (h : hdr &&& op.headerMask = op.headerMatch) : hdr = headerF0 op := by
  have h1 : op.headerMask = BitVec.allOnes 32 := hm.trans (by decide)
  rw [h1, BitVec.and_allOnes] at h
  rw [h]
  cases op <;> rfl

theorem append_extract3 {u v w : Nat} (x : BitVec (u + v + w)) :
    x.extractLsb' (w + v) u ++ x.extractLsb' w v ++ x.extractLsb' 0 w = x := by
  apply BitVec.eq_of_getLsbD_eq
  intro i hi
  rw [BitVec.getLsbD_append, BitVec.getLsbD_append]
  by_cases h : i < w
  · simp [h]
  · by_cases h2 : i - w < v
    · simp [h, h2, show w + (i - w) = i by omega]
    · simp [h, h2, show i - w - v < u by omega, show w + v + (i - w - v) = i by omega]

/-- A field of a word is 0 where a mask that covers it leaves a match that is 0 there. -/
theorem extract_eq_zero_of_mask {hdr mask mtch : Word} {start len : Nat} (h : hdr &&& mask = mtch)
    (hc : mask.extractLsb' start len = BitVec.allOnes len) (hz : mtch.extractLsb' start len = 0) :
    hdr.extractLsb' start len = 0 := by
  rw [← h, BitVec.extractLsb'_and, hc, BitVec.and_allOnes] at hz
  exact hz

/-- A header of format FP is determined by its mask, its match and its field P. -/
theorem headerFP_of_mask {hdr : Word} {op : Op} (hm : op.headerMask = 0xFFFFFCFF)
    (h : hdr &&& op.headerMask = op.headerMatch) (hop : opField hdr = op.code) : hdr = headerFP op (palField hdr) := by
  have h22 : hdr.extractLsb' 10 22 = 0 :=
    extract_eq_zero_of_mask h (by rw [hm]; decide) (by cases op <;> decide)
  have hx := append_extract3 (u := 22) (v := 2) (w := 8) hdr
  rw [headerFP, palField, Pal.bits_ofBits, ← hop, opField, ← h22]
  exact hx.symm

/-- A header of format FN is determined by its mask, its match and its field N. -/
theorem headerFN_of_mask {hdr : Word} {op : Op} (hm : op.headerMask = 0x0000FFFF)
    (h : hdr &&& op.headerMask = op.headerMatch) (hop : opField hdr = op.code) : hdr = headerFN op (highHalf hdr) := by
  have h8 : hdr.extractLsb' 8 8 = 0 :=
    extract_eq_zero_of_mask h (by rw [hm]; decide) (by cases op <;> decide)
  have hx := append_extract3 (u := 16) (v := 8) (w := 8) hdr
  rw [headerFN, highHalf, ← hop, opField]
  refine hx.symm.trans ?_
  rw [h8]

/-- The OP byte of a packet's header is its mnemonic's. -/
@[simp] theorem opField_header (i : Instr) : opField i.header = i.op.code := by
  cases i <;> simp [Instr.header, Instr.op]

/-- A packet's header meets its mnemonic's mask and match (R61). -/
@[simp] theorem header_mask (i : Instr) : i.header &&& i.op.headerMask = i.op.headerMatch := by
  cases i with
  | nop => exact headerF0_mask _ rfl
  | endRun => exact headerF0_mask _ rfl
  | setpal p _ => exact headerFP_mask _ p rfl
  | clear => exact headerF0_mask _ rfl
  | pixel _ _ _ => exact headerF0_mask _ rfl
  | rect p _ _ _ _ => exact headerFP_mask _ p rfl
  | circle p _ _ _ => exact headerFP_mask _ p rfl
  | rrect p _ _ _ _ _ => exact headerFP_mask _ p rfl
  | crcinit => exact headerF0_mask _ rfl
  | crcdata n _ => exact headerFN_mask _ n rfl
  | encode => exact headerF0_mask _ rfl

/-- A well-formed packet has as many words as its header asks for (R62). -/
theorem length_encode {i : Instr} (h : i.wellFormed = true) : (encode i).length = i.op.length i.header := by
  cases i <;> simp_all [encode, Instr.operands, Instr.op, Op.length, Instr.header, Instr.wellFormed]
  omega

theorem packetLen_header {i : Instr} (h : i.wellFormed = true) : packetLen i.header = (encode i).length := by
  rw [packetLen, opField_header, opOf?_code, length_encode h]

/-! ### Decoding -/

/-- Everything `decode` answers for a header and what follows it. -/
theorem decode_cons (hdr : Word) (ops : List Word) :
    decode (hdr :: ops) =
      match opOf? (opField hdr) with
      | none => .error (.illegalOpcode hdr)
      | some op =>
        if hdr &&& op.headerMask ≠ op.headerMatch then .error (.reservedField hdr)
        else if ops.length + 1 < op.length hdr then .error (.truncated hdr)
        else if !operandReservedOk op ops then .error (.reservedField hdr)
        else .ok (buildPacket op hdr ops, ops.drop (op.length hdr - 1)) := rfl

/-- What an accepted list of words is: a header that meets its mnemonic's match, all operand words, their reserved bits 0. -/
theorem decode_eq_ok {ws rest : List Word} {i : Instr} (h : decode ws = .ok (i, rest)) :
    ∃ hdr ops op, ws = hdr :: ops ∧ opField hdr = op.code ∧ hdr &&& op.headerMask = op.headerMatch ∧
      op.length hdr ≤ ops.length + 1 ∧ operandReservedOk op ops = true ∧ i = buildPacket op hdr ops ∧
      rest = ops.drop (op.length hdr - 1) := by
  cases ws with
  | nil => cases h
  | cons hdr ops =>
    rw [decode_cons] at h
    split at h
    · cases h
    · rename_i op hop
      split at h
      · cases h
      · split at h
        · cases h
        · split at h
          · cases h
          · rename_i h1 h2 h3
            cases h
            exact ⟨hdr, ops, op, rfl, (opOf?_eq_some.1 hop).symm, not_not.1 h1, by omega, by simpa using h3, rfl, rfl⟩

end Sys2Proof
end

