-- ==== Sys2Proof/Laws/Memory.lean ====
section
/-! SUPPORT. The laws of memories: what each operation makes of every address, that it keeps the canonical form, and that
canonical memories that read alike are equal. The reading laws hold of every list; only those that say so need the rising
order. -/

namespace Sys2Proof.Machine

variable {n : Nat}

/-! ### Reading after writing -/

@[simp] theorem Memory.get?_nil (a : Nat) : Memory.get? ([] : Memory n) a = none := rfl

theorem Memory.get?_cons (c : Nat × BitVec n) (m : Memory n) (a : Nat) :
    Memory.get? (c :: m) a = if c.1 = a then some c.2 else Memory.get? m a := rfl

theorem Memory.get?_insert (m : Memory n) (a b : Nat) (v : BitVec n) :
    (m.insert a v).get? b = if b = a then some v else m.get? b := by
  induction m with
  | nil => simp [Memory.insert, Memory.get?, eq_comm]
  | cons c m ih =>
    obtain ⟨x, u⟩ := c
    simp only [Memory.insert]
    split
    · simp only [Memory.get?_cons, eq_comm]
    · split
      · subst_vars; simp only [Memory.get?_cons]; grind
      · simp only [Memory.get?_cons, ih]; grind

theorem Memory.get?_filter (p : Nat → Bool) (m : Memory n) (a : Nat) :
    Memory.get? (m.filter (fun c => p c.1)) a = if p a then m.get? a else none := by
  induction m with
  | nil => simp
  | cons c m ih =>
    rw [List.filter_cons]
    split <;> simp only [Memory.get?_cons, ih] <;> grind

theorem Memory.get?_erase (m : Memory n) (a b : Nat) : (m.erase a).get? b = if b = a then none else m.get? b := by
  rw [Memory.erase, Memory.get?_filter (fun x => x != a)]
  by_cases h : b = a <;> simp [h]

/-- Everything `put` does: the written address holds the value, in its canonical form, and no other address changes. -/
theorem Memory.get?_put (ab : Option (BitVec n)) (m : Memory n) (a b : Nat) (v : BitVec n) :
    (m.put ab a v).get? b = if b = a then (if ab = some v then none else some v) else m.get? b := by
  rw [Memory.put]
  split <;> simp [Memory.get?_erase, Memory.get?_insert]

/-- Reading a memory of default `d` after a write. -/
theorem Memory.getD_put (d : BitVec n) (m : Memory n) (a b : Nat) (v : BitVec n) :
    ((m.put (some d) a v).get? b).getD d = if b = a then v else (m.get? b).getD d := by
  rw [Memory.get?_put]
  grind

theorem Memory.get?_cells (ab : Option (BitVec n)) (f : Nat → Option (BitVec n)) (lo k a : Nat) :
    Memory.get? (Memory.cells ab f lo k) a =
      if lo ≤ a ∧ a < lo + k then (f a).bind (fun v => if ab = some v then none else some v) else none := by
  induction k generalizing lo with
  | zero => simp [Memory.cells]
  | succ k ih =>
    have tail : lo ≠ a → Memory.get? (Memory.cells ab f (lo + 1) k) a =
        if lo ≤ a ∧ a < lo + (k + 1) then (f a).bind (fun v => if ab = some v then none else some v) else none := by
      intro hl
      rw [ih, if_congr (by omega : (lo + 1 ≤ a ∧ a < lo + 1 + k) ↔ (lo ≤ a ∧ a < lo + (k + 1))) rfl rfl]
    have past : lo = a → Memory.get? (Memory.cells ab f (lo + 1) k) lo = none := by
      rintro rfl
      rw [ih, if_neg (by omega)]
    simp only [Memory.cells]
    by_cases hl : lo = a
    · subst hl
      cases h : f lo with
      | none => simp [past rfl]
      | some v =>
        dsimp only
        split <;> rename_i hv
        · rw [past rfl]; simp [hv]
        · simp [hv, Memory.get?_cons]
    · cases h : f lo with
      | none => exact tail hl
      | some v =>
        dsimp only
        split
        · exact tail hl
        · rw [Memory.get?_cons, if_neg hl, tail hl]

theorem Memory.get?_merge (l m : Memory n) (a : Nat) (h : ∀ v, l.get? a = some v → m.get? a = none) :
    Memory.get? (Memory.merge l m) a = (l.get? a).or (m.get? a) := by
  induction l generalizing m with
  | nil => simp [Memory.merge]
  | cons c l ih =>
    rw [Memory.merge]
    induction m with
    | nil =>
      rw [Memory.mergeOne, Memory.get?_cons, Memory.get?_cons]
      split
      · simp
      · rename_i hc
        exact ih [] (fun _ _ => rfl)
    | cons d m ihm =>
      rw [Memory.mergeOne]
      split
      · rw [Memory.get?_cons, Memory.get?_cons]
        split
        · simp
        · rename_i hc
          apply ih
          intro v hv
          exact h v (by rw [Memory.get?_cons, if_neg hc]; exact hv)
      · by_cases hd : d.1 = a
        · have hn : Memory.get? (c :: l) a = none := by
            cases hv : Memory.get? (c :: l) a with
            | none => rfl
            | some v => have := h v hv; simp [Memory.get?_cons, hd] at this
          rw [hn, Memory.get?_cons, Memory.get?_cons, if_pos hd, if_pos hd]
          rfl
        · have e : Memory.get? (d :: m) a = Memory.get? m a := by rw [Memory.get?_cons, if_neg hd]
          rw [e] at h ⊢
          rw [Memory.get?_cons, if_neg hd]
          exact ihm h

/-- Everything `overlay` does: below `size`, the addresses where `f` gives a value hold it; no other address changes. -/
theorem Memory.get?_overlay (ab : Option (BitVec n)) (f : Nat → Option (BitVec n)) (size : Nat) (m : Memory n) (a : Nat) :
    (m.overlay ab f size).get? a =
      if a < size ∧ (f a).isSome then (f a).bind (fun v => if ab = some v then none else some v) else m.get? a := by
  have hf := Memory.get?_filter (fun x => !(decide (x < size) && (f x).isSome)) m a
  have hc := Memory.get?_cells ab f 0 size a
  rw [Memory.overlay, Memory.get?_merge, hf, hc]
  · cases h : f a <;> by_cases hs : a < size <;> simp [hs]
  · intro v hv
    rw [hc] at hv
    rw [hf]
    cases h : f a <;> by_cases hs : a < size <;> simp_all

/-- Reading a memory of default `d` after an overlay. -/
theorem Memory.getD_overlay (d : BitVec n) (f : Nat → Option (BitVec n)) (size : Nat) (m : Memory n) (a : Nat) :
    ((m.overlay (some d) f size).get? a).getD d =
      if a < size then (f a).getD ((m.get? a).getD d) else (m.get? a).getD d := by
  rw [Memory.get?_overlay]
  cases h : f a <;> by_cases hs : a < size <;> simp [hs]
  grind

theorem Memory.get?_ofList (lo : Nat) (l : List (BitVec n)) (a : Nat) :
    (Memory.ofList lo l).get? a = if lo ≤ a then l[a - lo]? else none := by
  induction l generalizing lo with
  | nil => simp [Memory.ofList]
  | cons v l ih =>
    rw [Memory.ofList, Memory.get?_cons, ih]
    by_cases h : lo = a
    · subst h; simp
    · rcases Nat.lt_or_ge a lo with h1 | h1
      · simp [h, show ¬ lo + 1 ≤ a by omega, show ¬ lo ≤ a by omega]
      · have : a - lo = (a - (lo + 1)) + 1 := by omega
        simp only [h, if_false, show lo + 1 ≤ a by omega, if_true, h1, this, List.getElem?_cons_succ]

/-! ### The rising order -/

theorem Memory.rising_iff (m : Memory n) : m.rising = true ↔ m.Pairwise (fun c d => c.1 < d.1) := by
  induction m with
  | nil => simp [Memory.rising]
  | cons c m ih =>
    cases m with
    | nil => simp [Memory.rising]
    | cons d m =>
      rw [Memory.rising, Bool.and_eq_true, ih, decide_eq_true_eq, List.pairwise_cons (a := c)]
      constructor
      · rintro ⟨h, hp⟩
        refine ⟨fun x hx => ?_, hp⟩
        rcases List.mem_cons.1 hx with rfl | hx
        · exact h
        · exact Nat.lt_trans h ((List.pairwise_cons.1 hp).1 x hx)
      · rintro ⟨h, hp⟩
        exact ⟨h d (List.mem_cons_self ..), hp⟩

/-- The canonical form, spelled out. -/
theorem Memory.wf_iff (ab : Option (BitVec n)) (size : Nat) (m : Memory n) :
    m.wf ab size = true ↔
      m.Pairwise (fun c d => c.1 < d.1) ∧ ∀ c ∈ m, c.1 < size ∧ ab ≠ some c.2 := by
  simp [Memory.wf, Memory.rising_iff]

@[simp] theorem Memory.wf_nil (ab : Option (BitVec n)) (size : Nat) : Memory.wf ab size ([] : Memory n) = true := rfl

theorem Memory.mem_of_get? {m : Memory n} {a : Nat} {v : BitVec n} (h : m.get? a = some v) : (a, v) ∈ m := by
  induction m with
  | nil => simp at h
  | cons c m ih =>
    rw [Memory.get?_cons] at h
    split at h
    · obtain ⟨x, u⟩ := c; simp_all
    · exact List.mem_cons_of_mem _ (ih h)

theorem Memory.get?_of_mem {m : Memory n} (hr : m.Pairwise (fun c d => c.1 < d.1)) {c : Nat × BitVec n} (h : c ∈ m) :
    m.get? c.1 = some c.2 := by
  induction m with
  | nil => simp at h
  | cons d m ih =>
    obtain ⟨hd, hp⟩ := List.pairwise_cons.1 hr
    rw [Memory.get?_cons]
    rcases List.mem_cons.1 h with rfl | h
    · simp
    · rw [if_neg (Nat.ne_of_lt (hd c h)), ih hp h]

theorem Memory.get?_none_of_lt {m : Memory n} {a : Nat} (h : ∀ c ∈ m, a < c.1) : m.get? a = none := by
  cases hv : m.get? a with
  | none => rfl
  | some v => exact absurd (h _ (Memory.mem_of_get? hv)) (Nat.lt_irrefl a)

/-- Rising memories that list the same values are the same list. -/
theorem Memory.ext_of_rising {m l : Memory n} (hm : m.Pairwise (fun c d => c.1 < d.1))
    (hl : l.Pairwise (fun c d => c.1 < d.1)) (h : ∀ a, m.get? a = l.get? a) : m = l := by
  have sub : ∀ {p q : Memory n}, p.Pairwise (fun c d => c.1 < d.1) → (∀ a, p.get? a = q.get? a) → ∀ c ∈ p, c ∈ q := by
    intro p q hp hpq c hc
    exact Memory.mem_of_get? (by rw [← hpq, Memory.get?_of_mem hp hc])
  have nd : ∀ {p : Memory n}, p.Pairwise (fun c d => c.1 < d.1) → p.Nodup :=
    fun hp => hp.imp (fun hcd he => by simp [he] at hcd)
  have perm : m.Perm l := (List.perm_ext_iff_of_nodup (nd hm) (nd hl)).2
    (fun c => ⟨sub hm h c, sub hl (fun a => (h a).symm) c⟩)
  exact perm.eq_of_pairwise (fun a b _ _ h1 h2 => absurd (Nat.lt_trans h1 h2) (Nat.lt_irrefl _)) hm hl

/-- Canonical memories of one default that read alike are equal. -/
theorem Memory.ext_of_wf {d : BitVec n} {size : Nat} {m l : Memory n} (hm : m.wf (some d) size = true)
    (hl : l.wf (some d) size = true) (h : ∀ a, (m.get? a).getD d = (l.get? a).getD d) : m = l := by
  rw [Memory.wf_iff] at hm hl
  refine Memory.ext_of_rising hm.1 hl.1 (fun a => ?_)
  have hh := h a
  cases h1 : m.get? a <;> cases h2 : l.get? a <;> simp [h1, h2] at hh ⊢
  · exact (hl.2 _ (Memory.mem_of_get? h2)).2 (by rw [hh])
  · exact (hm.2 _ (Memory.mem_of_get? h1)).2 (by rw [hh])
  · exact hh

/-! ### The operations keep the canonical form -/

theorem Memory.mem_insert {m : Memory n} {a : Nat} {v : BitVec n} {c : Nat × BitVec n} (h : c ∈ m.insert a v) :
    c = (a, v) ∨ c ∈ m := by
  induction m with
  | nil => simp [Memory.insert] at h; exact .inl h
  | cons d m ih =>
    obtain ⟨b, u⟩ := d
    simp only [Memory.insert] at h
    split at h
    · simpa using h
    · split at h
      · rcases List.mem_cons.1 h with h | h
        · exact .inl h
        · exact .inr (List.mem_cons_of_mem _ h)
      · rcases List.mem_cons.1 h with h | h
        · exact .inr (h ▸ List.mem_cons_self ..)
        · rcases ih h with h | h
          · exact .inl h
          · exact .inr (List.mem_cons_of_mem _ h)

theorem Memory.rising_insert {m : Memory n} (hm : m.Pairwise (fun c d => c.1 < d.1)) (a : Nat) (v : BitVec n) :
    (m.insert a v).Pairwise (fun c d => c.1 < d.1) := by
  induction m with
  | nil => simp [Memory.insert]
  | cons d m ih =>
    obtain ⟨b, u⟩ := d
    obtain ⟨hd, hp⟩ := List.pairwise_cons.1 hm
    simp only [Memory.insert]
    split
    · rename_i hab
      refine List.pairwise_cons.2 ⟨fun c hc => ?_, hm⟩
      rcases List.mem_cons.1 hc with rfl | hc
      · exact hab
      · exact Nat.lt_trans hab (hd c hc)
    · split
      · rename_i hab; subst hab; exact List.pairwise_cons.2 ⟨hd, hp⟩
      · rename_i h1 h2
        refine List.pairwise_cons.2 ⟨fun c hc => ?_, ih hp⟩
        rcases Memory.mem_insert hc with rfl | hc
        · show b < a; omega
        · exact hd c hc

/-- `put` keeps the canonical form. -/
theorem Memory.wf_put {ab : Option (BitVec n)} {size : Nat} {m : Memory n} (hm : m.wf ab size = true) {a : Nat}
    (ha : a < size) (v : BitVec n) : (m.put ab a v).wf ab size = true := by
  rw [Memory.wf_iff] at hm ⊢
  rw [Memory.put]
  split
  · exact ⟨hm.1.filter _, fun c hc => hm.2 c (List.mem_filter.1 hc).1⟩
  · rename_i hv
    refine ⟨Memory.rising_insert hm.1 a v, fun c hc => ?_⟩
    rcases Memory.mem_insert hc with rfl | hc
    · exact ⟨ha, hv⟩
    · exact hm.2 c hc

theorem Memory.mem_cells {ab : Option (BitVec n)} {f : Nat → Option (BitVec n)} {lo k : Nat} {c : Nat × BitVec n}
    (h : c ∈ Memory.cells ab f lo k) : lo ≤ c.1 ∧ c.1 < lo + k ∧ f c.1 = some c.2 ∧ ab ≠ some c.2 := by
  induction k generalizing lo with
  | zero => simp [Memory.cells] at h
  | succ k ih =>
    have tail : c ∈ Memory.cells ab f (lo + 1) k → lo ≤ c.1 ∧ c.1 < lo + (k + 1) ∧ f c.1 = some c.2 ∧ ab ≠ some c.2 := by
      intro h
      obtain ⟨h1, h2, h3⟩ := ih h
      exact ⟨by omega, by omega, h3⟩
    simp only [Memory.cells] at h
    split at h
    · exact tail h
    · rename_i v hv
      split at h
      · exact tail h
      · rename_i hne
        rcases List.mem_cons.1 h with rfl | h
        · exact ⟨Nat.le_refl _, by simp, hv, hne⟩
        · exact tail h

theorem Memory.rising_cells (ab : Option (BitVec n)) (f : Nat → Option (BitVec n)) (lo k : Nat) :
    (Memory.cells ab f lo k).Pairwise (fun c d => c.1 < d.1) := by
  induction k generalizing lo with
  | zero => simp [Memory.cells]
  | succ k ih =>
    simp only [Memory.cells]
    split
    · exact ih _
    · split
      · exact ih _
      · exact List.pairwise_cons.2 ⟨fun c hc => (Memory.mem_cells hc).1, ih _⟩

theorem Memory.mem_merge {l m : Memory n} {c : Nat × BitVec n} (h : c ∈ Memory.merge l m) : c ∈ l ∨ c ∈ m := by
  induction l generalizing m with
  | nil => exact .inr h
  | cons e l ih =>
    rw [Memory.merge] at h
    induction m with
    | nil =>
      rw [Memory.mergeOne] at h
      rcases List.mem_cons.1 h with rfl | h
      · exact .inl (List.mem_cons_self ..)
      · exact (ih h).imp (List.mem_cons_of_mem _) id
    | cons d m ihm =>
      rw [Memory.mergeOne] at h
      split at h
      · rcases List.mem_cons.1 h with rfl | h
        · exact .inl (List.mem_cons_self ..)
        · exact (ih h).imp (List.mem_cons_of_mem _) id
      · rcases List.mem_cons.1 h with rfl | h
        · exact .inr (List.mem_cons_self ..)
        · exact (ihm h).imp id (List.mem_cons_of_mem _)

theorem Memory.rising_merge {l m : Memory n} (hl : l.Pairwise (fun c d => c.1 < d.1))
    (hm : m.Pairwise (fun c d => c.1 < d.1)) (hd : ∀ c ∈ l, ∀ d ∈ m, c.1 ≠ d.1) :
    (Memory.merge l m).Pairwise (fun c d => c.1 < d.1) := by
  induction l generalizing m with
  | nil => exact hm
  | cons e l ih =>
    obtain ⟨he, hl⟩ := List.pairwise_cons.1 hl
    rw [Memory.merge]
    induction m with
    | nil =>
      rw [Memory.mergeOne]
      refine List.pairwise_cons.2 ⟨fun c hc => ?_, ih hl hm (by simp)⟩
      rcases Memory.mem_merge hc with hc | hc
      · exact he c hc
      · simp at hc
    | cons d m ihm =>
      obtain ⟨hdm, hp⟩ := List.pairwise_cons.1 hm
      rw [Memory.mergeOne]
      split
      · rename_i hed
        refine List.pairwise_cons.2
          ⟨fun c hc => ?_, ih hl hm (fun c hc x hx => hd c (List.mem_cons_of_mem _ hc) x hx)⟩
        rcases Memory.mem_merge hc with hc | hc
        · exact he c hc
        · rcases List.mem_cons.1 hc with rfl | hc
          · exact hed
          · exact Nat.lt_trans hed (hdm c hc)
      · rename_i hed
        have hne := hd e (List.mem_cons_self ..) d (List.mem_cons_self ..)
        refine List.pairwise_cons.2
          ⟨fun c hc => ?_, ihm hp (fun c hc x hx => hd c hc x (List.mem_cons_of_mem _ hx))⟩
        rcases Memory.mem_merge (l := e :: l) (by rw [Memory.merge]; exact hc) with hc | hc
        · rcases List.mem_cons.1 hc with rfl | hc
          · omega
          · have := he c hc; omega
        · exact hdm c hc

/-- `overlay` keeps the canonical form. -/
theorem Memory.wf_overlay {ab : Option (BitVec n)} {size : Nat} {m : Memory n} (hm : m.wf ab size = true)
    (f : Nat → Option (BitVec n)) : (m.overlay ab f size).wf ab size = true := by
  rw [Memory.wf_iff] at hm ⊢
  rw [Memory.overlay]
  refine ⟨Memory.rising_merge (Memory.rising_cells ..) (hm.1.filter _) (fun c hc d hd he => ?_), fun c hc => ?_⟩
  · obtain ⟨h1, h2, h3, -⟩ := Memory.mem_cells hc
    have := (List.mem_filter.1 hd).2
    rw [← he, h3] at this
    simp at this
    omega
  · rcases Memory.mem_merge hc with hc | hc
    · obtain ⟨h1, h2, -, h4⟩ := Memory.mem_cells hc
      exact ⟨by omega, h4⟩
    · exact hm.2 c (List.mem_filter.1 hc).1

theorem Memory.mem_ofList {lo : Nat} {l : List (BitVec n)} {c : Nat × BitVec n} (h : c ∈ Memory.ofList lo l) :
    lo ≤ c.1 ∧ c.1 < lo + l.length := by
  induction l generalizing lo with
  | nil => simp [Memory.ofList] at h
  | cons v l ih =>
    rw [Memory.ofList] at h
    rw [List.length_cons]
    rcases List.mem_cons.1 h with rfl | h
    · exact ⟨Nat.le_refl _, by simp⟩
    · have := ih h; omega

@[simp] theorem Memory.length_ofList (lo : Nat) (l : List (BitVec n)) : (Memory.ofList lo l).length = l.length := by
  induction l generalizing lo with
  | nil => rfl
  | cons v l ih => rw [Memory.ofList, List.length_cons, ih, List.length_cons]

/-- A list laid out from address 0 is canonical. -/
theorem Memory.wf_ofList (l : List (BitVec n)) : (Memory.ofList 0 l).wf none l.length = true := by
  rw [Memory.wf_iff]
  refine ⟨?_, fun c hc => ⟨by have := Memory.mem_ofList hc; omega, by simp⟩⟩
  generalize 0 = lo
  induction l generalizing lo with
  | nil => simp [Memory.ofList]
  | cons v l ih =>
    rw [Memory.ofList]
    exact List.pairwise_cons.2 ⟨fun c hc => by have := Memory.mem_ofList hc; omega, ih _⟩

/-! ### Reading a span in one pass -/

theorem Memory.get?_dropWhile {m : Memory n} (a b : Nat) (h : a ≤ b) :
    Memory.get? (m.dropWhile (fun c => decide (c.1 < a))) b = m.get? b := by
  induction m with
  | nil => rfl
  | cons c m ih =>
    rw [List.dropWhile_cons]
    split
    · rename_i hc
      simp at hc
      rw [ih, Memory.get?_cons, if_neg (by omega)]
    · rfl

@[simp] theorem Memory.length_span (d : BitVec n) (a k : Nat) (m : Memory n) : (Memory.span d a k m).length = k := by
  induction k generalizing a m with
  | zero => rfl
  | succ k ih =>
    rw [Memory.span]
    split
    · simp [ih]
    · split <;> simp [ih]

/-- Over a rising list, `span` reads each address as `get?` does. -/
theorem Memory.span_eq (d : BitVec n) (a k : Nat) {m : Memory n} (hm : m.Pairwise (fun c e => c.1 < e.1)) :
    Memory.span d a k m = (List.range k).map (fun j => (m.get? (a + j)).getD d) := by
  induction k generalizing a m with
  | zero => rfl
  | succ k ih =>
    have step : ∀ (l : Memory n) (v : BitVec n), l.Pairwise (fun c e => c.1 < e.1) → v = (m.get? a).getD d →
        (∀ j, l.get? (a + 1 + j) = m.get? (a + 1 + j)) →
        v :: Memory.span d (a + 1) k l = (List.range (k + 1)).map (fun j => (m.get? (a + j)).getD d) := by
      intro l v hl hv hg
      rw [List.range_succ_eq_map, List.map_cons, List.map_map, ih _ hl, hv]
      refine congrArg (List.cons _) (List.map_congr_left fun j _ => ?_)
      rw [hg j]
      simp only [Function.comp, Nat.succ_eq_add_one, Nat.add_assoc, Nat.add_comm 1 j]
    have hg : ∀ b, a ≤ b → Memory.get? (m.dropWhile (fun c => decide (c.1 < a))) b = m.get? b :=
      fun b => Memory.get?_dropWhile a b
    have hr : (m.dropWhile (fun c => decide (c.1 < a))).Pairwise (fun c e => c.1 < e.1) :=
      hm.sublist (List.dropWhile_sublist _)
    have hd := List.head?_dropWhile_not (fun c : Nat × BitVec n => decide (c.1 < a)) m
    rw [Memory.span]
    split
    · rename_i he
      rw [he] at hg
      exact step [] d List.Pairwise.nil (by rw [← hg a (Nat.le_refl a)]; rfl) (fun j => hg _ (by omega))
    · rename_i b v rest he
      rw [he] at hg hr hd
      simp only [List.head?_cons, decide_eq_false_iff_not, Nat.not_lt] at hd
      obtain ⟨hb, hp⟩ := List.pairwise_cons.1 hr
      split
      · rename_i hba
        refine step rest v hp ?_ (fun j => ?_)
        · rw [← hg a (Nat.le_refl a), Memory.get?_cons, if_pos hba]; rfl
        · rw [← hg _ (by omega), Memory.get?_cons, if_neg (by show ¬ b = _; omega)]
      · rename_i hba
        refine step ((b, v) :: rest) d hr ?_ (fun j => hg _ (by omega))
        rw [← hg a (Nat.le_refl a), Memory.get?_none_of_lt]
        · rfl
        · intro c hc
          rcases List.mem_cons.1 hc with rfl | hc
          · show a < b; omega
          · have := hb c hc; simp only at this; omega

end Sys2Proof.Machine
end

