-- ==== Sys2Proof/Laws/State.lean ====
section
/-! SUPPORT. What each shared operation leaves in each field of the state: one lemma per field per update. -/

namespace Sys2Proof.Machine

/-! ### advance -/

@[simp] theorem advance_cfg (n : Nat) (s : State) : (advance n s).cfg = s.cfg := rfl
@[simp] theorem advance_status (n : Nat) (s : State) : (advance n s).status = s.status := rfl
@[simp] theorem advance_ie (n : Nat) (s : State) : (advance n s).ie = s.ie := rfl
@[simp] theorem advance_pc (n : Nat) (s : State) : (advance n s).pc = s.pc + BitVec.ofNat 32 n := rfl
@[simp] theorem advance_faultInfo (n : Nat) (s : State) : (advance n s).faultInfo = s.faultInfo := rfl
@[simp] theorem advance_crcAcc (n : Nat) (s : State) : (advance n s).crcAcc = s.crcAcc := rfl
@[simp] theorem advance_outLen (n : Nat) (s : State) : (advance n s).outLen = s.outLen := rfl
@[simp] theorem advance_pal (n : Nat) (s : State) : (advance n s).pal = s.pal := rfl
@[simp] theorem advance_cmd (n : Nat) (s : State) : (advance n s).cmd = s.cmd := rfl
@[simp] theorem advance_canvas (n : Nat) (s : State) : (advance n s).canvas = s.canvas := rfl
@[simp] theorem advance_out (n : Nat) (s : State) : (advance n s).out = s.out := rfl
@[simp] theorem advance_clrPend (n : Nat) (s : State) : (advance n s).clrPend = s.clrPend := rfl
@[simp] theorem advance_agenda (n : Nat) (s : State) : (advance n s).agenda = s.agenda := rfl
@[simp] theorem advance_readData (n : Nat) (s : State) : (advance n s).readData = s.readData := rfl
@[simp] theorem advance_draws (n : Nat) (s : State) : (advance n s).draws = s.draws := rfl
@[simp] theorem advance_cmdEpoch (n : Nat) (s : State) : (advance n s).cmdEpoch = s.cmdEpoch := rfl

/-! ### raiseFault -/

@[simp] theorem raiseFault_cfg (c : FaultCode) (i : Word) (s : State) : (raiseFault c i s).cfg = s.cfg := rfl
@[simp] theorem raiseFault_status (c : FaultCode) (i : Word) (s : State) :
    (raiseFault c i s).status = { s.status with busy := false, fault := true, fcode := c } := rfl
@[simp] theorem raiseFault_ie (c : FaultCode) (i : Word) (s : State) : (raiseFault c i s).ie = s.ie := rfl
@[simp] theorem raiseFault_pc (c : FaultCode) (i : Word) (s : State) : (raiseFault c i s).pc = s.pc := rfl
@[simp] theorem raiseFault_faultInfo (c : FaultCode) (i : Word) (s : State) : (raiseFault c i s).faultInfo = i := rfl
@[simp] theorem raiseFault_crcAcc (c : FaultCode) (i : Word) (s : State) : (raiseFault c i s).crcAcc = s.crcAcc := rfl
@[simp] theorem raiseFault_outLen (c : FaultCode) (i : Word) (s : State) : (raiseFault c i s).outLen = s.outLen := rfl
@[simp] theorem raiseFault_pal (c : FaultCode) (i : Word) (s : State) : (raiseFault c i s).pal = s.pal := rfl
@[simp] theorem raiseFault_cmd (c : FaultCode) (i : Word) (s : State) : (raiseFault c i s).cmd = s.cmd := rfl
@[simp] theorem raiseFault_canvas (c : FaultCode) (i : Word) (s : State) : (raiseFault c i s).canvas = s.canvas := rfl
@[simp] theorem raiseFault_out (c : FaultCode) (i : Word) (s : State) : (raiseFault c i s).out = s.out := rfl
@[simp] theorem raiseFault_clrPend (c : FaultCode) (i : Word) (s : State) :
    (raiseFault c i s).clrPend = s.clrPend := rfl
@[simp] theorem raiseFault_agenda (c : FaultCode) (i : Word) (s : State) : (raiseFault c i s).agenda = s.agenda := rfl
@[simp] theorem raiseFault_readData (c : FaultCode) (i : Word) (s : State) :
    (raiseFault c i s).readData = s.readData := rfl
@[simp] theorem raiseFault_draws (c : FaultCode) (i : Word) (s : State) : (raiseFault c i s).draws = s.draws := rfl
@[simp] theorem raiseFault_cmdEpoch (c : FaultCode) (i : Word) (s : State) :
    (raiseFault c i s).cmdEpoch = s.cmdEpoch := rfl

/-! ### endRun -/

@[simp] theorem endRun_cfg (s : State) : (endRun s).cfg = s.cfg := rfl
@[simp] theorem endRun_status (s : State) : (endRun s).status = { s.status with busy := false, done := true } := rfl
@[simp] theorem endRun_ie (s : State) : (endRun s).ie = s.ie := rfl
@[simp] theorem endRun_pc (s : State) : (endRun s).pc = s.pc := rfl
@[simp] theorem endRun_faultInfo (s : State) : (endRun s).faultInfo = s.faultInfo := rfl
@[simp] theorem endRun_crcAcc (s : State) : (endRun s).crcAcc = s.crcAcc := rfl
@[simp] theorem endRun_outLen (s : State) : (endRun s).outLen = s.outLen := rfl
@[simp] theorem endRun_pal (s : State) : (endRun s).pal = s.pal := rfl
@[simp] theorem endRun_cmd (s : State) : (endRun s).cmd = s.cmd := rfl
@[simp] theorem endRun_canvas (s : State) : (endRun s).canvas = s.canvas := rfl
@[simp] theorem endRun_out (s : State) : (endRun s).out = s.out := rfl
@[simp] theorem endRun_clrPend (s : State) : (endRun s).clrPend = s.clrPend := rfl
@[simp] theorem endRun_agenda (s : State) : (endRun s).agenda = s.agenda := rfl
@[simp] theorem endRun_readData (s : State) : (endRun s).readData = s.readData := rfl
@[simp] theorem endRun_draws (s : State) : (endRun s).draws = s.draws := rfl
@[simp] theorem endRun_cmdEpoch (s : State) : (endRun s).cmdEpoch = s.cmdEpoch := rfl

/-! ### startRun -/

@[simp] theorem startRun_cfg (s : State) : (startRun s).cfg = s.cfg := rfl
@[simp] theorem startRun_status (s : State) :
    (startRun s).status = { s.status with busy := true, done := false, fault := false, fcode := .none } := rfl
@[simp] theorem startRun_ie (s : State) : (startRun s).ie = s.ie := rfl
@[simp] theorem startRun_pc (s : State) : (startRun s).pc = s.pc := rfl
@[simp] theorem startRun_faultInfo (s : State) : (startRun s).faultInfo = 0 := rfl
@[simp] theorem startRun_crcAcc (s : State) : (startRun s).crcAcc = s.crcAcc := rfl
@[simp] theorem startRun_outLen (s : State) : (startRun s).outLen = s.outLen := rfl
@[simp] theorem startRun_pal (s : State) : (startRun s).pal = s.pal := rfl
@[simp] theorem startRun_cmd (s : State) : (startRun s).cmd = s.cmd := rfl
@[simp] theorem startRun_canvas (s : State) : (startRun s).canvas = s.canvas := rfl
@[simp] theorem startRun_out (s : State) : (startRun s).out = s.out := rfl
@[simp] theorem startRun_clrPend (s : State) : (startRun s).clrPend = s.clrPend := rfl
@[simp] theorem startRun_agenda (s : State) : (startRun s).agenda = s.agenda := rfl
@[simp] theorem startRun_readData (s : State) : (startRun s).readData = s.readData := rfl
@[simp] theorem startRun_draws (s : State) : (startRun s).draws = s.draws := rfl
@[simp] theorem startRun_cmdEpoch (s : State) : (startRun s).cmdEpoch = s.cmdEpoch := rfl

/-! ### softReset -/

@[simp] theorem softReset_cfg (s : State) : (softReset s).cfg = s.cfg := rfl
@[simp] theorem softReset_status (s : State) :
    (softReset s).status = { busy := true, done := false, fault := false, busyErr := false, fcode := .none } := rfl
@[simp] theorem softReset_ie (s : State) :
    (softReset s).ie = { done := false, fault := false, busyErr := false } := rfl
@[simp] theorem softReset_pc (s : State) : (softReset s).pc = 0 := rfl
@[simp] theorem softReset_faultInfo (s : State) : (softReset s).faultInfo = 0 := rfl
@[simp] theorem softReset_crcAcc (s : State) : (softReset s).crcAcc = 0xFFFFFFFF := rfl
@[simp] theorem softReset_outLen (s : State) : (softReset s).outLen = 0 := rfl
@[simp] theorem softReset_pal (s : State) : (softReset s).pal = Palette.black := rfl
@[simp] theorem softReset_cmd (s : State) : (softReset s).cmd = s.cmd := rfl
@[simp] theorem softReset_canvas (s : State) : (softReset s).canvas = s.canvas := rfl
@[simp] theorem softReset_out (s : State) : (softReset s).out = [] := rfl
@[simp] theorem softReset_clrPend (s : State) : (softReset s).clrPend = true := rfl
@[simp] theorem softReset_agenda (s : State) : (softReset s).agenda = s.agenda := rfl
@[simp] theorem softReset_readData (s : State) : (softReset s).readData = s.readData := rfl
@[simp] theorem softReset_draws (s : State) : (softReset s).draws = s.draws := rfl
@[simp] theorem softReset_cmdEpoch (s : State) : (softReset s).cmdEpoch = s.cmdEpoch := rfl

/-! ### hardReset -/

@[simp] theorem hardReset_cfg (s : State) : (hardReset s).cfg = s.cfg := rfl
@[simp] theorem hardReset_status (s : State) :
    (hardReset s).status = { busy := true, done := false, fault := false, busyErr := false, fcode := .none } := rfl
@[simp] theorem hardReset_ie (s : State) :
    (hardReset s).ie = { done := false, fault := false, busyErr := false } := rfl
@[simp] theorem hardReset_pc (s : State) : (hardReset s).pc = 0 := rfl
@[simp] theorem hardReset_faultInfo (s : State) : (hardReset s).faultInfo = 0 := rfl
@[simp] theorem hardReset_crcAcc (s : State) : (hardReset s).crcAcc = 0xFFFFFFFF := rfl
@[simp] theorem hardReset_outLen (s : State) : (hardReset s).outLen = 0 := rfl
@[simp] theorem hardReset_pal (s : State) : (hardReset s).pal = Palette.black := rfl
@[simp] theorem hardReset_cmd (s : State) : (hardReset s).cmd = [] := rfl
@[simp] theorem hardReset_canvas (s : State) : (hardReset s).canvas = s.canvas := rfl
@[simp] theorem hardReset_out (s : State) : (hardReset s).out = [] := rfl
@[simp] theorem hardReset_clrPend (s : State) : (hardReset s).clrPend = true := rfl
@[simp] theorem hardReset_agenda (s : State) : (hardReset s).agenda = s.agenda := rfl
@[simp] theorem hardReset_readData (s : State) : (hardReset s).readData = s.readData := rfl
@[simp] theorem hardReset_draws (s : State) : (hardReset s).draws = s.draws := rfl
@[simp] theorem hardReset_cmdEpoch (s : State) : (hardReset s).cmdEpoch = s.cmdEpoch + 1 := rfl

/-! ### resetClear -/

@[simp] theorem resetClear_cfg (s : State) : (resetClear s).cfg = s.cfg := rfl
@[simp] theorem resetClear_status (s : State) : (resetClear s).status = { s.status with busy := false } := rfl
@[simp] theorem resetClear_ie (s : State) : (resetClear s).ie = s.ie := rfl
@[simp] theorem resetClear_pc (s : State) : (resetClear s).pc = s.pc := rfl
@[simp] theorem resetClear_faultInfo (s : State) : (resetClear s).faultInfo = s.faultInfo := rfl
@[simp] theorem resetClear_crcAcc (s : State) : (resetClear s).crcAcc = s.crcAcc := rfl
@[simp] theorem resetClear_outLen (s : State) : (resetClear s).outLen = s.outLen := rfl
@[simp] theorem resetClear_pal (s : State) : (resetClear s).pal = s.pal := rfl
@[simp] theorem resetClear_cmd (s : State) : (resetClear s).cmd = s.cmd := rfl
@[simp] theorem resetClear_canvas (s : State) : (resetClear s).canvas = [] := rfl
@[simp] theorem resetClear_out (s : State) : (resetClear s).out = s.out := rfl
@[simp] theorem resetClear_clrPend (s : State) : (resetClear s).clrPend = false := rfl
@[simp] theorem resetClear_agenda (s : State) : (resetClear s).agenda = s.agenda := rfl
@[simp] theorem resetClear_readData (s : State) : (resetClear s).readData = s.readData := rfl
@[simp] theorem resetClear_draws (s : State) : (resetClear s).draws = s.draws := rfl
@[simp] theorem resetClear_cmdEpoch (s : State) : (resetClear s).cmdEpoch = s.cmdEpoch := rfl

/-! ### putCmd -/

@[simp] theorem putCmd_cfg (s : State) (i : Nat) (v : Word) : (putCmd s i v).cfg = s.cfg := rfl
@[simp] theorem putCmd_status (s : State) (i : Nat) (v : Word) : (putCmd s i v).status = s.status := rfl
@[simp] theorem putCmd_ie (s : State) (i : Nat) (v : Word) : (putCmd s i v).ie = s.ie := rfl
@[simp] theorem putCmd_pc (s : State) (i : Nat) (v : Word) : (putCmd s i v).pc = s.pc := rfl
@[simp] theorem putCmd_faultInfo (s : State) (i : Nat) (v : Word) : (putCmd s i v).faultInfo = s.faultInfo := rfl
@[simp] theorem putCmd_crcAcc (s : State) (i : Nat) (v : Word) : (putCmd s i v).crcAcc = s.crcAcc := rfl
@[simp] theorem putCmd_outLen (s : State) (i : Nat) (v : Word) : (putCmd s i v).outLen = s.outLen := rfl
@[simp] theorem putCmd_pal (s : State) (i : Nat) (v : Word) : (putCmd s i v).pal = s.pal := rfl
@[simp] theorem putCmd_cmd (s : State) (i : Nat) (v : Word) : (putCmd s i v).cmd = s.cmd.put none i v := rfl
@[simp] theorem putCmd_canvas (s : State) (i : Nat) (v : Word) : (putCmd s i v).canvas = s.canvas := rfl
@[simp] theorem putCmd_out (s : State) (i : Nat) (v : Word) : (putCmd s i v).out = s.out := rfl
@[simp] theorem putCmd_clrPend (s : State) (i : Nat) (v : Word) : (putCmd s i v).clrPend = s.clrPend := rfl
@[simp] theorem putCmd_agenda (s : State) (i : Nat) (v : Word) : (putCmd s i v).agenda = s.agenda := rfl
@[simp] theorem putCmd_readData (s : State) (i : Nat) (v : Word) : (putCmd s i v).readData = s.readData := rfl
@[simp] theorem putCmd_draws (s : State) (i : Nat) (v : Word) : (putCmd s i v).draws = s.draws := rfl
@[simp] theorem putCmd_cmdEpoch (s : State) (i : Nat) (v : Word) : (putCmd s i v).cmdEpoch = s.cmdEpoch := rfl

/-! ### putCanvas -/

@[simp] theorem putCanvas_cfg (s : State) (a : Nat) (v : Byte) : (putCanvas s a v).cfg = s.cfg := rfl
@[simp] theorem putCanvas_status (s : State) (a : Nat) (v : Byte) : (putCanvas s a v).status = s.status := rfl
@[simp] theorem putCanvas_ie (s : State) (a : Nat) (v : Byte) : (putCanvas s a v).ie = s.ie := rfl
@[simp] theorem putCanvas_pc (s : State) (a : Nat) (v : Byte) : (putCanvas s a v).pc = s.pc := rfl
@[simp] theorem putCanvas_faultInfo (s : State) (a : Nat) (v : Byte) :
    (putCanvas s a v).faultInfo = s.faultInfo := rfl
@[simp] theorem putCanvas_crcAcc (s : State) (a : Nat) (v : Byte) : (putCanvas s a v).crcAcc = s.crcAcc := rfl
@[simp] theorem putCanvas_outLen (s : State) (a : Nat) (v : Byte) : (putCanvas s a v).outLen = s.outLen := rfl
@[simp] theorem putCanvas_pal (s : State) (a : Nat) (v : Byte) : (putCanvas s a v).pal = s.pal := rfl
@[simp] theorem putCanvas_cmd (s : State) (a : Nat) (v : Byte) : (putCanvas s a v).cmd = s.cmd := rfl
@[simp] theorem putCanvas_canvas (s : State) (a : Nat) (v : Byte) :
    (putCanvas s a v).canvas = s.canvas.put (some 0) a v := rfl
@[simp] theorem putCanvas_out (s : State) (a : Nat) (v : Byte) : (putCanvas s a v).out = s.out := rfl
@[simp] theorem putCanvas_clrPend (s : State) (a : Nat) (v : Byte) : (putCanvas s a v).clrPend = s.clrPend := rfl
@[simp] theorem putCanvas_agenda (s : State) (a : Nat) (v : Byte) : (putCanvas s a v).agenda = s.agenda := rfl
@[simp] theorem putCanvas_readData (s : State) (a : Nat) (v : Byte) : (putCanvas s a v).readData = s.readData := rfl
@[simp] theorem putCanvas_draws (s : State) (a : Nat) (v : Byte) : (putCanvas s a v).draws = s.draws := rfl
@[simp] theorem putCanvas_cmdEpoch (s : State) (a : Nat) (v : Byte) : (putCanvas s a v).cmdEpoch = s.cmdEpoch := rfl

/-! ### zeroCanvas -/

@[simp] theorem zeroCanvas_cfg (s : State) : (zeroCanvas s).cfg = s.cfg := rfl
@[simp] theorem zeroCanvas_status (s : State) : (zeroCanvas s).status = s.status := rfl
@[simp] theorem zeroCanvas_ie (s : State) : (zeroCanvas s).ie = s.ie := rfl
@[simp] theorem zeroCanvas_pc (s : State) : (zeroCanvas s).pc = s.pc := rfl
@[simp] theorem zeroCanvas_faultInfo (s : State) : (zeroCanvas s).faultInfo = s.faultInfo := rfl
@[simp] theorem zeroCanvas_crcAcc (s : State) : (zeroCanvas s).crcAcc = s.crcAcc := rfl
@[simp] theorem zeroCanvas_outLen (s : State) : (zeroCanvas s).outLen = s.outLen := rfl
@[simp] theorem zeroCanvas_pal (s : State) : (zeroCanvas s).pal = s.pal := rfl
@[simp] theorem zeroCanvas_cmd (s : State) : (zeroCanvas s).cmd = s.cmd := rfl
@[simp] theorem zeroCanvas_canvas (s : State) : (zeroCanvas s).canvas = [] := rfl
@[simp] theorem zeroCanvas_out (s : State) : (zeroCanvas s).out = s.out := rfl
@[simp] theorem zeroCanvas_clrPend (s : State) : (zeroCanvas s).clrPend = s.clrPend := rfl
@[simp] theorem zeroCanvas_agenda (s : State) : (zeroCanvas s).agenda = s.agenda := rfl
@[simp] theorem zeroCanvas_readData (s : State) : (zeroCanvas s).readData = s.readData := rfl
@[simp] theorem zeroCanvas_draws (s : State) : (zeroCanvas s).draws = s.draws := rfl
@[simp] theorem zeroCanvas_cmdEpoch (s : State) : (zeroCanvas s).cmdEpoch = s.cmdEpoch := rfl

/-! ### putOut -/

@[simp] theorem putOut_cfg (s : State) (f : Bytes) : (putOut s f).cfg = s.cfg := rfl
@[simp] theorem putOut_status (s : State) (f : Bytes) : (putOut s f).status = s.status := rfl
@[simp] theorem putOut_ie (s : State) (f : Bytes) : (putOut s f).ie = s.ie := rfl
@[simp] theorem putOut_pc (s : State) (f : Bytes) : (putOut s f).pc = s.pc := rfl
@[simp] theorem putOut_faultInfo (s : State) (f : Bytes) : (putOut s f).faultInfo = s.faultInfo := rfl
@[simp] theorem putOut_crcAcc (s : State) (f : Bytes) : (putOut s f).crcAcc = s.crcAcc := rfl
@[simp] theorem putOut_outLen (s : State) (f : Bytes) : (putOut s f).outLen = BitVec.ofNat 32 f.length := rfl
@[simp] theorem putOut_pal (s : State) (f : Bytes) : (putOut s f).pal = s.pal := rfl
@[simp] theorem putOut_cmd (s : State) (f : Bytes) : (putOut s f).cmd = s.cmd := rfl
@[simp] theorem putOut_canvas (s : State) (f : Bytes) : (putOut s f).canvas = s.canvas := rfl
@[simp] theorem putOut_out (s : State) (f : Bytes) : (putOut s f).out = Memory.ofList 0 f := rfl
@[simp] theorem putOut_clrPend (s : State) (f : Bytes) : (putOut s f).clrPend = s.clrPend := rfl
@[simp] theorem putOut_agenda (s : State) (f : Bytes) : (putOut s f).agenda = s.agenda := rfl
@[simp] theorem putOut_readData (s : State) (f : Bytes) : (putOut s f).readData = s.readData := rfl
@[simp] theorem putOut_draws (s : State) (f : Bytes) : (putOut s f).draws = s.draws := rfl
@[simp] theorem putOut_cmdEpoch (s : State) (f : Bytes) : (putOut s f).cmdEpoch = s.cmdEpoch := rfl

/-! ### voidOut -/

@[simp] theorem voidOut_cfg (s : State) : (voidOut s).cfg = s.cfg := rfl
@[simp] theorem voidOut_status (s : State) : (voidOut s).status = s.status := rfl
@[simp] theorem voidOut_ie (s : State) : (voidOut s).ie = s.ie := rfl
@[simp] theorem voidOut_pc (s : State) : (voidOut s).pc = s.pc := rfl
@[simp] theorem voidOut_faultInfo (s : State) : (voidOut s).faultInfo = s.faultInfo := rfl
@[simp] theorem voidOut_crcAcc (s : State) : (voidOut s).crcAcc = s.crcAcc := rfl
@[simp] theorem voidOut_outLen (s : State) : (voidOut s).outLen = 0 := rfl
@[simp] theorem voidOut_pal (s : State) : (voidOut s).pal = s.pal := rfl
@[simp] theorem voidOut_cmd (s : State) : (voidOut s).cmd = s.cmd := rfl
@[simp] theorem voidOut_canvas (s : State) : (voidOut s).canvas = s.canvas := rfl
@[simp] theorem voidOut_out (s : State) : (voidOut s).out = [] := rfl
@[simp] theorem voidOut_clrPend (s : State) : (voidOut s).clrPend = s.clrPend := rfl
@[simp] theorem voidOut_agenda (s : State) : (voidOut s).agenda = s.agenda := rfl
@[simp] theorem voidOut_readData (s : State) : (voidOut s).readData = s.readData := rfl
@[simp] theorem voidOut_draws (s : State) : (voidOut s).draws = s.draws := rfl
@[simp] theorem voidOut_cmdEpoch (s : State) : (voidOut s).cmdEpoch = s.cmdEpoch := rfl

/-! ### putPal -/

@[simp] theorem putPal_cfg (s : State) (p : Pal) (c : Rgb) : (putPal s p c).cfg = s.cfg := by cases p <;> rfl
@[simp] theorem putPal_status (s : State) (p : Pal) (c : Rgb) : (putPal s p c).status = s.status := by cases p <;> rfl
@[simp] theorem putPal_ie (s : State) (p : Pal) (c : Rgb) : (putPal s p c).ie = s.ie := by cases p <;> rfl
@[simp] theorem putPal_pc (s : State) (p : Pal) (c : Rgb) : (putPal s p c).pc = s.pc := by cases p <;> rfl
@[simp] theorem putPal_faultInfo (s : State) (p : Pal) (c : Rgb) :
    (putPal s p c).faultInfo = s.faultInfo := by cases p <;> rfl
@[simp] theorem putPal_crcAcc (s : State) (p : Pal) (c : Rgb) : (putPal s p c).crcAcc = s.crcAcc := by cases p <;> rfl
@[simp] theorem putPal_outLen (s : State) (p : Pal) (c : Rgb) : (putPal s p c).outLen = s.outLen := by cases p <;> rfl
@[simp] theorem putPal_cmd (s : State) (p : Pal) (c : Rgb) : (putPal s p c).cmd = s.cmd := by cases p <;> rfl
@[simp] theorem putPal_canvas (s : State) (p : Pal) (c : Rgb) : (putPal s p c).canvas = s.canvas := by cases p <;> rfl
@[simp] theorem putPal_out (s : State) (p : Pal) (c : Rgb) : (putPal s p c).out = s.out := by cases p <;> rfl
@[simp] theorem putPal_clrPend (s : State) (p : Pal) (c : Rgb) :
    (putPal s p c).clrPend = s.clrPend := by cases p <;> rfl
@[simp] theorem putPal_agenda (s : State) (p : Pal) (c : Rgb) : (putPal s p c).agenda = s.agenda := by cases p <;> rfl
@[simp] theorem putPal_readData (s : State) (p : Pal) (c : Rgb) :
    (putPal s p c).readData = s.readData := by cases p <;> rfl
@[simp] theorem putPal_draws (s : State) (p : Pal) (c : Rgb) : (putPal s p c).draws = s.draws := by cases p <;> rfl
@[simp] theorem putPal_cmdEpoch (s : State) (p : Pal) (c : Rgb) :
    (putPal s p c).cmdEpoch = s.cmdEpoch := by cases p <;> rfl

/-! ### setPixel -/

@[simp] theorem setPixel_cfg (x y : Int) (c : Rgba) (s : State) :
    (setPixel x y c s).cfg = s.cfg := by unfold setPixel; split <;> rfl
@[simp] theorem setPixel_status (x y : Int) (c : Rgba) (s : State) :
    (setPixel x y c s).status = s.status := by unfold setPixel; split <;> rfl
@[simp] theorem setPixel_ie (x y : Int) (c : Rgba) (s : State) :
    (setPixel x y c s).ie = s.ie := by unfold setPixel; split <;> rfl
@[simp] theorem setPixel_pc (x y : Int) (c : Rgba) (s : State) :
    (setPixel x y c s).pc = s.pc := by unfold setPixel; split <;> rfl
@[simp] theorem setPixel_faultInfo (x y : Int) (c : Rgba) (s : State) :
    (setPixel x y c s).faultInfo = s.faultInfo := by unfold setPixel; split <;> rfl
@[simp] theorem setPixel_crcAcc (x y : Int) (c : Rgba) (s : State) :
    (setPixel x y c s).crcAcc = s.crcAcc := by unfold setPixel; split <;> rfl
@[simp] theorem setPixel_outLen (x y : Int) (c : Rgba) (s : State) :
    (setPixel x y c s).outLen = s.outLen := by unfold setPixel; split <;> rfl
@[simp] theorem setPixel_pal (x y : Int) (c : Rgba) (s : State) :
    (setPixel x y c s).pal = s.pal := by unfold setPixel; split <;> rfl
@[simp] theorem setPixel_cmd (x y : Int) (c : Rgba) (s : State) :
    (setPixel x y c s).cmd = s.cmd := by unfold setPixel; split <;> rfl
@[simp] theorem setPixel_out (x y : Int) (c : Rgba) (s : State) :
    (setPixel x y c s).out = s.out := by unfold setPixel; split <;> rfl
@[simp] theorem setPixel_clrPend (x y : Int) (c : Rgba) (s : State) :
    (setPixel x y c s).clrPend = s.clrPend := by unfold setPixel; split <;> rfl
@[simp] theorem setPixel_agenda (x y : Int) (c : Rgba) (s : State) :
    (setPixel x y c s).agenda = s.agenda := by unfold setPixel; split <;> rfl
@[simp] theorem setPixel_readData (x y : Int) (c : Rgba) (s : State) :
    (setPixel x y c s).readData = s.readData := by unfold setPixel; split <;> rfl
@[simp] theorem setPixel_draws (x y : Int) (c : Rgba) (s : State) :
    (setPixel x y c s).draws = s.draws := by unfold setPixel; split <;> rfl
@[simp] theorem setPixel_cmdEpoch (x y : Int) (c : Rgba) (s : State) :
    (setPixel x y c s).cmdEpoch = s.cmdEpoch := by unfold setPixel; split <;> rfl

/-! ### paint -/

@[simp] theorem paint_cfg (shape : Int → Int → Bool) (c : Rgba) (s : State) : (paint shape c s).cfg = s.cfg := rfl
@[simp] theorem paint_status (shape : Int → Int → Bool) (c : Rgba) (s : State) :
    (paint shape c s).status = s.status := rfl
@[simp] theorem paint_ie (shape : Int → Int → Bool) (c : Rgba) (s : State) : (paint shape c s).ie = s.ie := rfl
@[simp] theorem paint_pc (shape : Int → Int → Bool) (c : Rgba) (s : State) : (paint shape c s).pc = s.pc := rfl
@[simp] theorem paint_faultInfo (shape : Int → Int → Bool) (c : Rgba) (s : State) :
    (paint shape c s).faultInfo = s.faultInfo := rfl
@[simp] theorem paint_crcAcc (shape : Int → Int → Bool) (c : Rgba) (s : State) :
    (paint shape c s).crcAcc = s.crcAcc := rfl
@[simp] theorem paint_outLen (shape : Int → Int → Bool) (c : Rgba) (s : State) :
    (paint shape c s).outLen = s.outLen := rfl
@[simp] theorem paint_pal (shape : Int → Int → Bool) (c : Rgba) (s : State) : (paint shape c s).pal = s.pal := rfl
@[simp] theorem paint_cmd (shape : Int → Int → Bool) (c : Rgba) (s : State) : (paint shape c s).cmd = s.cmd := rfl
@[simp] theorem paint_out (shape : Int → Int → Bool) (c : Rgba) (s : State) : (paint shape c s).out = s.out := rfl
@[simp] theorem paint_clrPend (shape : Int → Int → Bool) (c : Rgba) (s : State) :
    (paint shape c s).clrPend = s.clrPend := rfl
@[simp] theorem paint_agenda (shape : Int → Int → Bool) (c : Rgba) (s : State) :
    (paint shape c s).agenda = s.agenda := rfl
@[simp] theorem paint_readData (shape : Int → Int → Bool) (c : Rgba) (s : State) :
    (paint shape c s).readData = s.readData := rfl
@[simp] theorem paint_draws (shape : Int → Int → Bool) (c : Rgba) (s : State) :
    (paint shape c s).draws = s.draws := rfl
@[simp] theorem paint_cmdEpoch (shape : Int → Int → Bool) (c : Rgba) (s : State) :
    (paint shape c s).cmdEpoch = s.cmdEpoch := rfl

/-! ### fillRect -/

@[simp] theorem fillRect_cfg (x0 y0 w h : Int) (c : Rgb) (s : State) : (fillRect x0 y0 w h c s).cfg = s.cfg := rfl
@[simp] theorem fillRect_status (x0 y0 w h : Int) (c : Rgb) (s : State) :
    (fillRect x0 y0 w h c s).status = s.status := rfl
@[simp] theorem fillRect_ie (x0 y0 w h : Int) (c : Rgb) (s : State) : (fillRect x0 y0 w h c s).ie = s.ie := rfl
@[simp] theorem fillRect_pc (x0 y0 w h : Int) (c : Rgb) (s : State) : (fillRect x0 y0 w h c s).pc = s.pc := rfl
@[simp] theorem fillRect_faultInfo (x0 y0 w h : Int) (c : Rgb) (s : State) :
    (fillRect x0 y0 w h c s).faultInfo = s.faultInfo := rfl
@[simp] theorem fillRect_crcAcc (x0 y0 w h : Int) (c : Rgb) (s : State) :
    (fillRect x0 y0 w h c s).crcAcc = s.crcAcc := rfl
@[simp] theorem fillRect_outLen (x0 y0 w h : Int) (c : Rgb) (s : State) :
    (fillRect x0 y0 w h c s).outLen = s.outLen := rfl
@[simp] theorem fillRect_pal (x0 y0 w h : Int) (c : Rgb) (s : State) : (fillRect x0 y0 w h c s).pal = s.pal := rfl
@[simp] theorem fillRect_cmd (x0 y0 w h : Int) (c : Rgb) (s : State) : (fillRect x0 y0 w h c s).cmd = s.cmd := rfl
@[simp] theorem fillRect_out (x0 y0 w h : Int) (c : Rgb) (s : State) : (fillRect x0 y0 w h c s).out = s.out := rfl
@[simp] theorem fillRect_clrPend (x0 y0 w h : Int) (c : Rgb) (s : State) :
    (fillRect x0 y0 w h c s).clrPend = s.clrPend := rfl
@[simp] theorem fillRect_agenda (x0 y0 w h : Int) (c : Rgb) (s : State) :
    (fillRect x0 y0 w h c s).agenda = s.agenda := rfl
@[simp] theorem fillRect_readData (x0 y0 w h : Int) (c : Rgb) (s : State) :
    (fillRect x0 y0 w h c s).readData = s.readData := rfl
@[simp] theorem fillRect_draws (x0 y0 w h : Int) (c : Rgb) (s : State) :
    (fillRect x0 y0 w h c s).draws = s.draws := rfl
@[simp] theorem fillRect_cmdEpoch (x0 y0 w h : Int) (c : Rgb) (s : State) :
    (fillRect x0 y0 w h c s).cmdEpoch = s.cmdEpoch := rfl

/-! ### fillCircle -/

@[simp] theorem fillCircle_cfg (cx cy r : Int) (c : Rgb) (s : State) : (fillCircle cx cy r c s).cfg = s.cfg := rfl
@[simp] theorem fillCircle_status (cx cy r : Int) (c : Rgb) (s : State) :
    (fillCircle cx cy r c s).status = s.status := rfl
@[simp] theorem fillCircle_ie (cx cy r : Int) (c : Rgb) (s : State) : (fillCircle cx cy r c s).ie = s.ie := rfl
@[simp] theorem fillCircle_pc (cx cy r : Int) (c : Rgb) (s : State) : (fillCircle cx cy r c s).pc = s.pc := rfl
@[simp] theorem fillCircle_faultInfo (cx cy r : Int) (c : Rgb) (s : State) :
    (fillCircle cx cy r c s).faultInfo = s.faultInfo := rfl
@[simp] theorem fillCircle_crcAcc (cx cy r : Int) (c : Rgb) (s : State) :
    (fillCircle cx cy r c s).crcAcc = s.crcAcc := rfl
@[simp] theorem fillCircle_outLen (cx cy r : Int) (c : Rgb) (s : State) :
    (fillCircle cx cy r c s).outLen = s.outLen := rfl
@[simp] theorem fillCircle_pal (cx cy r : Int) (c : Rgb) (s : State) : (fillCircle cx cy r c s).pal = s.pal := rfl
@[simp] theorem fillCircle_cmd (cx cy r : Int) (c : Rgb) (s : State) : (fillCircle cx cy r c s).cmd = s.cmd := rfl
@[simp] theorem fillCircle_out (cx cy r : Int) (c : Rgb) (s : State) : (fillCircle cx cy r c s).out = s.out := rfl
@[simp] theorem fillCircle_clrPend (cx cy r : Int) (c : Rgb) (s : State) :
    (fillCircle cx cy r c s).clrPend = s.clrPend := rfl
@[simp] theorem fillCircle_agenda (cx cy r : Int) (c : Rgb) (s : State) :
    (fillCircle cx cy r c s).agenda = s.agenda := rfl
@[simp] theorem fillCircle_readData (cx cy r : Int) (c : Rgb) (s : State) :
    (fillCircle cx cy r c s).readData = s.readData := rfl
@[simp] theorem fillCircle_draws (cx cy r : Int) (c : Rgb) (s : State) :
    (fillCircle cx cy r c s).draws = s.draws := rfl
@[simp] theorem fillCircle_cmdEpoch (cx cy r : Int) (c : Rgb) (s : State) :
    (fillCircle cx cy r c s).cmdEpoch = s.cmdEpoch := rfl

/-! ### fillRoundRect -/

@[simp] theorem fillRoundRect_cfg (x0 y0 w h r : Int) (c : Rgb) (s : State) :
    (fillRoundRect x0 y0 w h r c s).cfg = s.cfg := by
  simp only [fillRoundRect, fillRect_cfg, fillCircle_cfg]
@[simp] theorem fillRoundRect_status (x0 y0 w h r : Int) (c : Rgb) (s : State) :
    (fillRoundRect x0 y0 w h r c s).status = s.status := by
  simp only [fillRoundRect, fillRect_status, fillCircle_status]
@[simp] theorem fillRoundRect_ie (x0 y0 w h r : Int) (c : Rgb) (s : State) :
    (fillRoundRect x0 y0 w h r c s).ie = s.ie := by
  simp only [fillRoundRect, fillRect_ie, fillCircle_ie]
@[simp] theorem fillRoundRect_pc (x0 y0 w h r : Int) (c : Rgb) (s : State) :
    (fillRoundRect x0 y0 w h r c s).pc = s.pc := by
  simp only [fillRoundRect, fillRect_pc, fillCircle_pc]
@[simp] theorem fillRoundRect_faultInfo (x0 y0 w h r : Int) (c : Rgb) (s : State) :
    (fillRoundRect x0 y0 w h r c s).faultInfo = s.faultInfo := by
  simp only [fillRoundRect, fillRect_faultInfo, fillCircle_faultInfo]
@[simp] theorem fillRoundRect_crcAcc (x0 y0 w h r : Int) (c : Rgb) (s : State) :
    (fillRoundRect x0 y0 w h r c s).crcAcc = s.crcAcc := by
  simp only [fillRoundRect, fillRect_crcAcc, fillCircle_crcAcc]
@[simp] theorem fillRoundRect_outLen (x0 y0 w h r : Int) (c : Rgb) (s : State) :
    (fillRoundRect x0 y0 w h r c s).outLen = s.outLen := by
  simp only [fillRoundRect, fillRect_outLen, fillCircle_outLen]
@[simp] theorem fillRoundRect_pal (x0 y0 w h r : Int) (c : Rgb) (s : State) :
    (fillRoundRect x0 y0 w h r c s).pal = s.pal := by
  simp only [fillRoundRect, fillRect_pal, fillCircle_pal]
@[simp] theorem fillRoundRect_cmd (x0 y0 w h r : Int) (c : Rgb) (s : State) :
    (fillRoundRect x0 y0 w h r c s).cmd = s.cmd := by
  simp only [fillRoundRect, fillRect_cmd, fillCircle_cmd]
@[simp] theorem fillRoundRect_out (x0 y0 w h r : Int) (c : Rgb) (s : State) :
    (fillRoundRect x0 y0 w h r c s).out = s.out := by
  simp only [fillRoundRect, fillRect_out, fillCircle_out]
@[simp] theorem fillRoundRect_clrPend (x0 y0 w h r : Int) (c : Rgb) (s : State) :
    (fillRoundRect x0 y0 w h r c s).clrPend = s.clrPend := by
  simp only [fillRoundRect, fillRect_clrPend, fillCircle_clrPend]
@[simp] theorem fillRoundRect_agenda (x0 y0 w h r : Int) (c : Rgb) (s : State) :
    (fillRoundRect x0 y0 w h r c s).agenda = s.agenda := by
  simp only [fillRoundRect, fillRect_agenda, fillCircle_agenda]
@[simp] theorem fillRoundRect_readData (x0 y0 w h r : Int) (c : Rgb) (s : State) :
    (fillRoundRect x0 y0 w h r c s).readData = s.readData := by
  simp only [fillRoundRect, fillRect_readData, fillCircle_readData]
@[simp] theorem fillRoundRect_draws (x0 y0 w h r : Int) (c : Rgb) (s : State) :
    (fillRoundRect x0 y0 w h r c s).draws = s.draws := by
  simp only [fillRoundRect, fillRect_draws, fillCircle_draws]
@[simp] theorem fillRoundRect_cmdEpoch (x0 y0 w h r : Int) (c : Rgb) (s : State) :
    (fillRoundRect x0 y0 w h r c s).cmdEpoch = s.cmdEpoch := by
  simp only [fillRoundRect, fillRect_cmdEpoch, fillCircle_cmdEpoch]

end Sys2Proof.Machine
end

