-- ==== Sys2Proof/Laws/HostBus.lean ====
section
/-! SUPPORT. The laws of the host's transactions: what each offset of the window is, what the busy guard does, and that CMD
reads back. -/

namespace Sys2Proof.Machine

/-! ### The address map -/

theorem targetAt_reg (c : Config) {off : Nat} (h : off < 0x1000) : targetAt c off = regTarget off := by
  rw [targetAt, if_pos h]

theorem targetAt_cmd (c : Config) {i : Nat} (h : i < c.cmdWords) : targetAt c (0x10000 + 4 * i) = .cmdWord i := by
  have := c.cmdWords_range
  have hd : (0x10000 + 4 * i - 0x10000) / 4 = i := by omega
  rw [targetAt, if_neg (by omega), if_neg (by omega), if_pos (by omega), hd, if_pos h]

theorem targetAt_canvas (c : Config) {i : Nat} (h : i < 0x100000) : targetAt c (0x400000 + 4 * i) = .canvasWord i := by
  have hd : (0x400000 + 4 * i - 0x400000) / 4 = i := by omega
  rw [targetAt, if_neg (by omega), if_neg (by omega), if_neg (by omega), if_neg (by omega), if_pos (by omega), hd]

theorem targetAt_out (c : Config) {k : Nat} (h : k < 0x200000) : targetAt c (0x800000 + 4 * k) = .outWord k := by
  have hd : (0x800000 + 4 * k - 0x800000) / 4 = k := by omega
  rw [targetAt, if_neg (by omega), if_neg (by omega), if_neg (by omega), if_neg (by omega), if_neg (by omega),
    if_pos (by omega), hd]

/-- A register offset that R10 does not list is unmapped. -/
theorem regTarget_unlisted {off : Nat} (h : 0x40 ≤ off) : regTarget off = .unmapped := by
  have : regMap.find? (fun e => e.1 == off) = none := by
    rw [List.find?_eq_none]
    intro e he
    simp only [regMap, List.mem_cons, List.not_mem_nil, or_false] at he
    rcases he with rfl | rfl | rfl | rfl | rfl | rfl | rfl | rfl | rfl | rfl | rfl | rfl | rfl | rfl | rfl | rfl <;>
      simp <;> omega
  rw [regTarget, this]

/-- Offsets from 0x40 to the CMD window, and from the end of CMD to the CANVAS window, are unmapped. -/
theorem targetAt_unmapped (c : Config) {off : Nat}
    (h : (0x40 ≤ off ∧ off < 0x10000) ∨ (0x10000 + 4 * c.cmdWords ≤ off ∧ off < 0x400000)) :
    targetAt c off = .unmapped := by
  rw [targetAt]
  split
  · exact regTarget_unlisted (by omega)
  · split
    · rfl
    · split
      · rw [if_neg (by omega)]
      · rw [if_pos (by omega)]

/-- The palette's offsets are the palette's registers. -/
@[simp] theorem targetAt_palOffset (c : Config) (p : Pal) : targetAt c (palOffset p) = .reg (.pal p) := by cases p <;> rfl

/-! ### What a written word reads back as -/

/-- IE keeps bits 3:1 of a written word. -/
theorem IrqEnable.toWord_ofWord (data : Word) : (IrqEnable.ofWord data).toWord = data &&& 0x0000000E := by
  apply BitVec.eq_of_getLsbD_eq
  intro i hi
  simp only [IrqEnable.toWord, IrqEnable.ofWord, bit, BitVec.getLsbD_append, BitVec.getLsbD_ofBool, BitVec.getLsbD_and]
  interval_cases i <;> simp

/-- A palette register keeps bits 23:0 of a written word. -/
theorem rgb_toWord_ofWord (data : Word) : (Rgb.ofWord data).toWord = data &&& 0x00FFFFFF := by
  apply BitVec.eq_of_getLsbD_eq
  intro i hi
  simp only [Rgb.ofWord, Rgb.toWord, byteOf, BitVec.getLsbD_append, BitVec.getLsbD_extractLsb', BitVec.getLsbD_and]
  interval_cases i <;> simp

/-! ### The busy guard -/

theorem guarded_busy {s : State} (h : s.status.busy = true) (t : State) :
    guarded s t = { s with status := { s.status with busyErr := true } } := by rw [guarded, if_pos h]

theorem guarded_idle {s : State} (h : s.status.busy = false) (t : State) : guarded s t = t := by
  rw [guarded, h]; rfl

/-! ### CMD and registers -/

theorem cmdWord_putCmd (s : State) (i j : Nat) (v : Word) :
    cmdWord (putCmd s i v) j = if j = i then v else cmdWord s j := by
  rw [cmdWord, putCmd_cmd, Memory.get?_put, putCmd_cmdEpoch]
  split
  · simp
  · rfl

theorem palColour_putPal (s : State) (p q : Pal) (c : Rgb) :
    palColour (putPal s p c) q = if q = p then c else palColour s q := by
  cases p <;> cases q <;> rfl

/-- The bytes of a packed window word. -/
theorem byteOf_packWord (f : Nat → Byte) {j : Nat} (h : j < 4) : byteOf (packWord f) j = f j := by
  obtain ⟨h0, h1, h2, h3⟩ := byteOf_append (f 3) (f 2) (f 1) (f 0)
  have : j = 0 ∨ j = 1 ∨ j = 2 ∨ j = 3 := by omega
  rcases this with rfl | rfl | rfl | rfl
  · exact h0
  · exact h1
  · exact h2
  · exact h3

/-! ### OUT -/

/-- Where nothing of OUT is valid, every byte is the draw's. -/
theorem outByte_of_outLen_zero {s : State} (h : s.outLen = 0) (d : Word) (a : Nat) : outByte s d a = byteOf d (a % 4) := by
  simp [outByte, h]

/-- What `putOut` makes of OUT: below the file's length its bytes, above it the draw's. -/
theorem outByte_putOut (s : State) {f : Bytes} (h : f.length < 2 ^ 32) (d : Word) (a : Nat) :
    outByte (putOut s f) d a = (f[a]?).getD (byteOf d (a % 4)) := by
  rw [outByte, putOut_outLen, putOut_out, Memory.get?_ofList, BitVec.toNat_ofNat, Nat.mod_eq_of_lt h]
  by_cases ha : a < f.length
  · simp [ha]
  · simp [ha]

end Sys2Proof.Machine
end

