-- ==== Sys2Proof/Laws/PerInstr.lean ====
section
/-! SUPPORT. Facts about packets as syntax, one lemma per constructor. -/

namespace Sys2Proof.Laws.PacketLength

/-- A well-formed packet has as many words as its header asks for, and its header meets its mnemonic's mask (R61, R62). -/
def Statement (i : Instr) : Prop :=
  i.wellFormed = true →
    (encode i).length = packetLen i.header ∧ i.header &&& i.op.headerMask = i.op.headerMatch

theorem of_instr (i : Instr) : Statement i := fun h => ⟨(packetLen_header h).symm, header_mask i⟩

end Sys2Proof.Laws.PacketLength

namespace Sys2Proof.Laws

theorem PacketLength.nop : PacketLength.Statement .nop := PacketLength.of_instr _

theorem PacketLength.endRun : PacketLength.Statement .endRun := PacketLength.of_instr _

theorem PacketLength.setpal (p : Pal) (c : Rgb) : PacketLength.Statement (.setpal p c) := PacketLength.of_instr _

theorem PacketLength.clear : PacketLength.Statement .clear := PacketLength.of_instr _

theorem PacketLength.pixel (x y : Half) (c : Rgba) : PacketLength.Statement (.pixel x y c) := PacketLength.of_instr _

theorem PacketLength.rect (p : Pal) (x0 y0 w h : Half) : PacketLength.Statement (.rect p x0 y0 w h) :=
  PacketLength.of_instr _

theorem PacketLength.circle (p : Pal) (cx cy r : Half) : PacketLength.Statement (.circle p cx cy r) :=
  PacketLength.of_instr _

theorem PacketLength.rrect (p : Pal) (x0 y0 w h r : Half) : PacketLength.Statement (.rrect p x0 y0 w h r) :=
  PacketLength.of_instr _

theorem PacketLength.crcinit : PacketLength.Statement .crcinit := PacketLength.of_instr _

theorem PacketLength.crcdata (n : Half) (data : List Word) : PacketLength.Statement (.crcdata n data) :=
  PacketLength.of_instr _

theorem PacketLength.encode : PacketLength.Statement .encode := PacketLength.of_instr _

end Sys2Proof.Laws
end

