-- ==== Sys2Proof/Laws/Raster.lean ====
section
/-! SUPPORT. The laws of drawing: what SetPixel and a fill make of every byte and of every pixel of the canvas. -/

namespace Sys2Proof.Machine

/-! ### Bytes -/

theorem canvasByte_putCanvas (s : State) (a b : Nat) (v : Byte) :
    canvasByte (putCanvas s a v) b = if b = a then v else canvasByte s b := Memory.getD_put 0 s.canvas a b v

@[simp] theorem canvasByte_zeroCanvas (s : State) (a : Nat) : canvasByte (zeroCanvas s) a = 0 := rfl

@[simp] theorem canvasByte_advance (n : Nat) (s : State) (a : Nat) : canvasByte (advance n s) a = canvasByte s a := rfl

/-- What a fill makes of every byte: below `W*H*4` the channel of the colour where the shape holds of the byte's pixel, every
other byte as before. -/
theorem canvasByte_paint (shape : Int → Int → Bool) (c : Rgba) (s : State) (a : Nat) :
    canvasByte (paint shape c s) a =
      if a < s.cfg.canvasBytes ∧ shape (a / 4 % s.cfg.width : Nat) (a / 4 / s.cfg.width : Nat) = true then
        channel c (a % 4)
      else canvasByte s a := by
  have h := Memory.getD_overlay (0 : Byte)
    (fun a => if shape (a / 4 % s.cfg.width : Nat) (a / 4 / s.cfg.width : Nat) then some (channel c (a % 4)) else none)
    s.cfg.canvasBytes s.canvas a
  refine h.trans ?_
  generalize shape (a / 4 % s.cfg.width : Nat) (a / 4 / s.cfg.width : Nat) = b
  by_cases h1 : a < s.cfg.canvasBytes <;> cases b <;> simp [h1, canvasByte]

/-! ### Pixels -/

theorem onCanvas_iff (c : Config) (x y : Int) :
    onCanvas c x y = true ↔ 0 ≤ x ∧ x < c.width ∧ 0 ≤ y ∧ y < c.height := by simp [onCanvas, and_assoc]

/-- A pixel on the canvas has its four bytes below `W*H*4`. -/
theorem pixelAddr_lt {c : Config} {x y : Int} (h : onCanvas c x y = true) : pixelAddr c x y + 4 ≤ c.canvasBytes := by
  obtain ⟨h1, h2, h3, h4⟩ := (onCanvas_iff c x y).1 h
  obtain ⟨a, rfl⟩ := Int.eq_ofNat_of_zero_le h1
  obtain ⟨b, rfl⟩ := Int.eq_ofNat_of_zero_le h3
  have ha : a < c.width := by omega
  have hb : b + 1 ≤ c.height := by omega
  have hm : (b + 1) * c.width ≤ c.height * c.width := Nat.mul_le_mul_right _ hb
  have hx : (b + 1) * c.width = b * c.width + c.width := by ring
  have hc : c.height * c.width = c.width * c.height := Nat.mul_comm ..
  simp only [pixelAddr, Config.canvasBytes, Config.pixels, Int.toNat_natCast]
  omega

/-- The pixel that a byte of an on-canvas pixel belongs to. -/
theorem pixelAddr_coords {c : Config} {x y : Int} (h : onCanvas c x y = true) (j : Nat) (hj : j < 4) :
    ((pixelAddr c x y + j) / 4 % c.width : Nat) = x ∧ ((pixelAddr c x y + j) / 4 / c.width : Nat) = y ∧
    (pixelAddr c x y + j) % 4 = j := by
  obtain ⟨h1, h2, h3, h4⟩ := (onCanvas_iff c x y).1 h
  obtain ⟨a, rfl⟩ := Int.eq_ofNat_of_zero_le h1
  obtain ⟨b, rfl⟩ := Int.eq_ofNat_of_zero_le h3
  have ha : a < c.width := by omega
  simp only [pixelAddr, Int.toNat_natCast]
  have hd : ((b * c.width + a) * 4 + j) / 4 = b * c.width + a := by omega
  have hm : ((b * c.width + a) * 4 + j) % 4 = j := by omega
  rw [hd, hm]
  refine ⟨?_, ?_, rfl⟩
  · rw [Nat.mul_comm, Nat.mul_add_mod, Nat.mod_eq_of_lt ha]
  · rw [Nat.mul_comm, Nat.mul_add_div (by omega), Nat.div_eq_of_lt ha, Nat.add_zero]

/-- On-canvas pixels with the same address are the same pixel. -/
theorem pixelAddr_inj {c : Config} {x y u v : Int} (h : onCanvas c x y = true) (h' : onCanvas c u v = true)
    (he : pixelAddr c x y = pixelAddr c u v) : x = u ∧ y = v := by
  have h1 := pixelAddr_coords h 0 (by decide)
  have h2 := pixelAddr_coords h' 0 (by decide)
  rw [he] at h1
  exact ⟨h1.1.symm.trans h2.1, h1.2.1.symm.trans h2.2.1⟩

/-- What a fill makes of every pixel of the canvas. -/
theorem pixelAt_paint (shape : Int → Int → Bool) (c : Rgba) (s : State) {x y : Int} (h : onCanvas s.cfg x y = true) :
    pixelAt (paint shape c s) x y = if shape x y = true then c else pixelAt s x y := by
  have hlt := pixelAddr_lt h
  have hb : ∀ j, j < 4 → canvasByte (paint shape c s) (pixelAddr s.cfg x y + j) =
      if shape x y = true then channel c j else canvasByte s (pixelAddr s.cfg x y + j) := by
    intro j hj
    obtain ⟨h1, h2, h3⟩ := pixelAddr_coords h j hj
    rw [canvasByte_paint, h1, h2, h3]
    simp only [show pixelAddr s.cfg x y + j < s.cfg.canvasBytes by omega, true_and]
  have h0 := hb 0 (by decide)
  have h1 := hb 1 (by decide)
  have h2 := hb 2 (by decide)
  have h3 := hb 3 (by decide)
  simp only [pixelAt, paint_cfg, Nat.add_zero] at *
  rw [h0, h1, h2, h3]
  split <;> rfl

/-- A fill changes no byte at or past `W*H*4`. -/
theorem canvasByte_paint_past (shape : Int → Int → Bool) (c : Rgba) (s : State) {a : Nat} (h : s.cfg.canvasBytes ≤ a) :
    canvasByte (paint shape c s) a = canvasByte s a := by
  rw [canvasByte_paint, if_neg (by omega)]

/-- A fill writes CANVAS and nothing else. -/
theorem paint_frame (shape : Int → Int → Bool) (c : Rgba) (s : State) :
    paint shape c s = { s with canvas := (paint shape c s).canvas } := rfl

/-- The nine fills of RRECT write CANVAS and nothing else. -/
theorem fillRoundRect_frame (x0 y0 w h r : Int) (c : Rgb) (s : State) :
    fillRoundRect x0 y0 w h r c s = { s with canvas := (fillRoundRect x0 y0 w h r c s).canvas } := by
  ext1 <;> simp

theorem setPixel_off {c : Rgba} {s : State} {x y : Int} (h : onCanvas s.cfg x y = false) : setPixel x y c s = s := by
  simp [setPixel, h]

/-- SetPixel writes CANVAS and nothing else. -/
theorem setPixel_frame (x y : Int) (c : Rgba) (s : State) :
    setPixel x y c s = { s with canvas := (setPixel x y c s).canvas } := by
  ext1 <;> simp

/-- What SetPixel makes of every byte. -/
theorem canvasByte_setPixel (x y : Int) (c : Rgba) (s : State) (a : Nat) :
    canvasByte (setPixel x y c s) a =
      if onCanvas s.cfg x y = true ∧ pixelAddr s.cfg x y ≤ a ∧ a < pixelAddr s.cfg x y + 4 then
        channel c (a - pixelAddr s.cfg x y)
      else canvasByte s a := by
  cases h : onCanvas s.cfg x y with
  | false => simp [setPixel_off h]
  | true =>
    simp only [setPixel, h, if_true, canvasByte_putCanvas]
    generalize pixelAddr s.cfg x y = p
    by_cases h3 : a = p + 3
    · subst h3; simp [channel]
    · by_cases h2 : a = p + 2
      · subst h2; simp [channel]
      · by_cases h1 : a = p + 1
        · subst h1; simp [channel]
        · by_cases h0 : a = p
          · subst h0; simp [channel]
          · rw [if_neg h3, if_neg h2, if_neg h1, if_neg h0, if_neg (by omega)]

/-- What SetPixel makes of every pixel of the canvas. -/
theorem pixelAt_setPixel (x y : Int) (c : Rgba) (s : State) {u v : Int} (h : onCanvas s.cfg u v = true) :
    pixelAt (setPixel x y c s) u v = if u = x ∧ v = y then c else pixelAt s u v := by
  by_cases he : u = x ∧ v = y
  · obtain ⟨rfl, rfl⟩ := he
    simp only [pixelAt, setPixel_cfg, canvasByte_setPixel, h, and_self, if_true]
    simp [channel]
  · rw [if_neg he]
    have hne : ∀ j, j < 4 → canvasByte (setPixel x y c s) (pixelAddr s.cfg u v + j) =
        canvasByte s (pixelAddr s.cfg u v + j) := by
      intro j hj
      rw [canvasByte_setPixel, if_neg]
      rintro ⟨hon, h1, h2⟩
      obtain ⟨k, hk⟩ := Nat.exists_eq_add_of_le h1
      have hk4 : k < 4 := by omega
      have c1 := pixelAddr_coords h j hj
      have c2 := pixelAddr_coords hon k hk4
      rw [hk] at c1
      exact he ⟨c1.1.symm.trans c2.1, c1.2.1.symm.trans c2.2.1⟩
    have h0 := hne 0 (by decide)
    have h1 := hne 1 (by decide)
    have h2 := hne 2 (by decide)
    have h3 := hne 3 (by decide)
    simp only [pixelAt, setPixel_cfg, Nat.add_zero] at *
    rw [h0, h1, h2, h3]

/-! ### The canonical form -/

/-- A fill keeps the canvas canonical. -/
theorem wf_paint {s : State} (h : Memory.wf (some 0) s.cfg.canvasBytes s.canvas = true) (shape : Int → Int → Bool)
    (c : Rgba) : Memory.wf (some 0) s.cfg.canvasBytes (paint shape c s).canvas = true := Memory.wf_overlay h _

/-- SetPixel keeps the canvas canonical. -/
theorem wf_setPixel {s : State} (h : Memory.wf (some 0) s.cfg.canvasBytes s.canvas = true) (x y : Int) (c : Rgba) :
    Memory.wf (some 0) s.cfg.canvasBytes (setPixel x y c s).canvas = true := by
  cases ho : onCanvas s.cfg x y with
  | false => rw [setPixel_off ho]; exact h
  | true =>
    have hlt := pixelAddr_lt ho
    simp only [setPixel, ho, if_true, putCanvas_canvas]
    exact Memory.wf_put (Memory.wf_put (Memory.wf_put (Memory.wf_put h (by omega) _) (by omega) _) (by omega) _)
      (by omega) _

/-- The memories right after reset are canonical. -/
theorem reset_memoryOk : State.reset.memoryOk = true := by decide

end Sys2Proof.Machine
end

