-- ==== Sys2Proof/Laws/Step.lean ====
section
/-! SUPPORT. The laws of the step: what fetching gives, what each kind of step can do, and that no meaning stops. -/

namespace Sys2Proof.Machine

/-! ### Fetch -/

@[simp] theorem length_cmdWordsFrom (s : State) (i n : Nat) :
    (cmdWordsFrom s i n).length = min n (s.cfg.cmdWords - i) := by
  induction n generalizing i with
  | zero => simp [cmdWordsFrom]
  | succ n ih =>
    rw [cmdWordsFrom]
    split
    · rw [List.length_cons, ih]; omega
    · simp; omega

/-- Word `k` of those fetched from `i` on is CMD word `i + k`. -/
theorem getElem?_cmdWordsFrom (s : State) (i n k : Nat) :
    (cmdWordsFrom s i n)[k]? = if k < n ∧ i + k < s.cfg.cmdWords then some (cmdWord s (i + k)) else none := by
  induction n generalizing i k with
  | zero => simp [cmdWordsFrom]
  | succ n ih =>
    rw [cmdWordsFrom]
    split
    · cases k with
      | zero => simp; omega
      | succ k =>
        rw [List.getElem?_cons_succ, ih, Nat.add_assoc, Nat.add_comm 1 k]
        simp only [Nat.add_lt_add_iff_right]
    · simp; omega

theorem one_le_length (op : Op) (hdr : Word) : 1 ≤ op.length hdr := by cases op <;> simp [Op.length]

theorem one_le_packetLen (hdr : Word) : 1 ≤ packetLen hdr := by
  rw [packetLen]
  split
  · exact one_le_length _ _
  · exact Nat.le_refl 1

/-- What a fetch gives: nothing at or past CMD_WORDS, else the header and what follows it. -/
theorem fetchPacket_eq (s : State) :
    fetchPacket s =
      if s.pc.toNat < s.cfg.cmdWords then
        cmdWord s s.pc.toNat :: cmdWordsFrom s (s.pc.toNat + 1) (packetLen (cmdWord s s.pc.toNat) - 1)
      else [] := by
  rw [fetchPacket]
  split
  · rename_i h
    obtain ⟨n, hn⟩ := Nat.exists_eq_add_of_le (one_le_packetLen (cmdWord s s.pc.toNat))
    rw [hn, Nat.add_comm 1 n, cmdWordsFrom, if_pos h, Nat.add_sub_cancel]
  · rfl

/-- Where CMD holds a packet's words from PC on, the fetch gives exactly them. -/
theorem fetchPacket_of_cmd {s : State} {i : Instr} (hw : i.wellFormed = true)
    (hfit : s.pc.toNat + (encode i).length ≤ s.cfg.cmdWords)
    (hcmd : ∀ k, k < (encode i).length → cmdWord s (s.pc.toNat + k) = (encode i).getD k 0) :
    fetchPacket s = encode i := by
  have h0 : cmdWord s s.pc.toNat = i.header := by
    have := hcmd 0 (by simp [encode])
    simpa [encode] using this
  have hlt : s.pc.toNat < s.cfg.cmdWords := by
    simp only [encode, List.length_cons] at hfit
    omega
  rw [fetchPacket, if_pos hlt, h0, packetLen_header hw]
  apply List.ext_getElem?
  intro k
  rw [getElem?_cmdWordsFrom]
  split
  · rename_i h
    rw [hcmd k h.1, List.getD_eq_getElem?_getD, List.getElem?_eq_getElem h.1]
    rfl
  · rename_i h
    rw [List.getElem?_eq_none]
    omega

/-! ### Steps -/

theorem runsPacket_iff (s : State) :
    s.runsPacket = true ↔ s.agenda = [] ∧ s.status.busy = true ∧ s.clrPend = false := by
  simp [State.runsPacket, and_assoc]

theorem step_of_agenda_nil {s : State} (h : s.agenda = []) : step s = engineStep s := by
  rw [step]; simp only [h]

theorem step_of_agenda_cons {s : State} {m : Move} {rest : List Move} (h : s.agenda = m :: rest) :
    step s = moveStep m { s with agenda := rest } := by
  rw [step]; simp only [h]

theorem engineStep_idle {s : State} (h : s.status.busy = false) : engineStep s = .next s := by simp [engineStep, h]

theorem engineStep_clear {s : State} (h : s.status.busy = true) (hc : s.clrPend = true) :
    engineStep s = .next (resetClear s) := by simp [engineStep, h, hc]

theorem engineStep_packet {s : State} (h : s.status.busy = true) (hc : s.clrPend = false) :
    engineStep s = packetStep s := by simp [engineStep, h, hc]

theorem step_of_runsPacket {s : State} (h : s.runsPacket = true) : step s = packetStep s := by
  obtain ⟨h1, h2, h3⟩ := (runsPacket_iff s).1 h
  rw [step_of_agenda_nil h1, engineStep_packet h2 h3]

theorem packetStep_ok {s : State} {i : Instr} {rest : List Word} (h : decode (fetchPacket s) = .ok (i, rest)) :
    packetStep s = exec i s := by simp [packetStep, h]

theorem packetStep_error {s : State} {r : Reject} (h : decode (fetchPacket s) = .error r) :
    packetStep s = .next (raiseReject r s) := by simp [packetStep, h]

/-- No meaning stops: every packet ends in a next state. -/
theorem exec_isNext (i : Instr) (s : State) : ∃ t, exec i s = .next t := by cases i <;> exact ⟨_, rfl⟩

/-- The engine's step never stops. -/
theorem engineStep_isNext (s : State) : ∃ t, engineStep s = .next t := by
  rw [engineStep]
  split
  · exact ⟨_, rfl⟩
  · split
    · exact ⟨_, rfl⟩
    · rw [packetStep]
      split
      · exact exec_isNext _ _
      · exact ⟨_, rfl⟩

/-- The fetch does not look at the moves to come. -/
theorem fetchPacket_agenda (s : State) (l : List Move) : fetchPacket { s with agenda := l } = fetchPacket s := by
  have h : ∀ i n, cmdWordsFrom { s with agenda := l } i n = cmdWordsFrom s i n := by
    intro i n
    induction n generalizing i with
    | zero => rfl
    | succ n ih => rw [cmdWordsFrom, cmdWordsFrom, ih]; rfl
  rw [fetchPacket, fetchPacket, h]
  rfl

/-- No packet looks at the moves to come, and each leaves them. -/
theorem exec_agenda {i : Instr} {s t : State} (h : exec i s = .next t) (l : List Move) :
    exec i { s with agenda := l } = .next { t with agenda := l } := by
  cases i <;> cases h
  case setpal p c => cases p <;> rfl
  case pixel x y c =>
    simp only [exec, execPixel, setPixel]
    split <;> rfl
  case rrect p x0 y0 w h r =>
    simp only [exec, execRrect]
    split <;> rfl
  case encode =>
    simp only [exec, execEncode, scanStream]
    split
    · rfl
    · split <;> rfl
  all_goals rfl

/-- What the engine can do: nothing, the reset clear, a fault of `CheckPacket`, or a packet. -/
theorem engineStep_cases {s t : State} (h : engineStep s = .next t) :
    (s.status.busy = false ∧ t = s) ∨
    (s.status.busy = true ∧ s.clrPend = true ∧ t = resetClear s) ∨
    (s.status.busy = true ∧ s.clrPend = false ∧ ∃ r, decode (fetchPacket s) = .error r ∧ t = raiseReject r s) ∨
    (s.status.busy = true ∧ s.clrPend = false ∧
      ∃ i rest, decode (fetchPacket s) = .ok (i, rest) ∧ exec i s = .next t) := by
  cases hb : s.status.busy with
  | false =>
    rw [engineStep_idle hb] at h
    cases h
    exact .inl ⟨rfl, rfl⟩
  | true =>
    cases hc : s.clrPend with
    | true =>
      rw [engineStep_clear hb hc] at h
      cases h
      exact .inr (.inl ⟨rfl, rfl, rfl⟩)
    | false =>
      rw [engineStep_packet hb hc] at h
      cases hd : decode (fetchPacket s) with
      | error r =>
        rw [packetStep_error hd] at h
        cases h
        exact .inr (.inr (.inl ⟨rfl, rfl, r, rfl, rfl⟩))
      | ok p =>
        obtain ⟨i, rest⟩ := p
        rw [packetStep_ok hd] at h
        exact .inr (.inr (.inr ⟨rfl, rfl, i, rest, rfl, h⟩))

/-- What a step can do: the engine's step, or the first move of the agenda on the state without it. -/
theorem step_cases {s t : State} (h : step s = .next t) :
    (s.agenda = [] ∧ engineStep s = .next t) ∨
    ∃ m rest, s.agenda = m :: rest ∧
      ((m = .engine ∧ engineStep { s with agenda := rest } = .next t) ∨
        (∃ addr, m = .hostRead addr ∧ t = hostRead addr { s with agenda := rest }) ∨
        (∃ addr data, m = .hostWrite addr data ∧ t = hostWrite addr data { s with agenda := rest }) ∨
        (m = .hardReset ∧ t = hardReset { s with agenda := rest })) := by
  cases ha : s.agenda with
  | nil =>
    rw [step_of_agenda_nil ha] at h
    exact .inl ⟨rfl, h⟩
  | cons m rest =>
    rw [step_of_agenda_cons ha] at h
    refine .inr ⟨m, rest, rfl, ?_⟩
    cases m with
    | hostRead addr => cases h; exact .inr (.inl ⟨addr, rfl, rfl⟩)
    | hostWrite addr data => cases h; exact .inr (.inr (.inl ⟨addr, data, rfl, rfl⟩))
    | hardReset => cases h; exact .inr (.inr (.inr ⟨rfl, rfl⟩))
    | engine => exact .inl ⟨rfl, h⟩

/-- What `raiseReject` does, whichever test failed: a fault with a code that is not 0. -/
theorem raiseReject_eq (r : Reject) (s : State) : ∃ code info, code ≠ .none ∧ raiseReject r s = raiseFault code info s := by
  cases r
  · exact ⟨.cmdBounds, 0, by decide, rfl⟩
  · exact ⟨.illegalOpcode, _, by decide, rfl⟩
  · exact ⟨.reservedField, _, by decide, rfl⟩
  · exact ⟨.cmdBounds, _, by decide, rfl⟩

end Sys2Proof.Machine
end

