-- ==== Sys2Proof/Tests/Slice0.lean ====
section
/-! SUPPORT. Tests of the model: each expected result is taken from spec/ (95_test_vectors.md unless another file is named)
or worked out by hand from the rule cited; and one witness per statement with hypotheses. -/

namespace Sys2Proof.Tests

open Sys2Proof.Machine

/-! ### Small machines -/

/-- A `w` by `h` instance with `cw` command words and `cap` bytes of OUT, where these are legal; else the instance of the spec. -/
def config (w h cw cap : Nat) (z : Compressor) : Config :=
  if hw : 1 ≤ w ∧ w ≤ 1024 then
    if hh : 1 ≤ h ∧ h ≤ 1024 then
      if hc : 1 ≤ cw ∧ cw ≤ 16384 then
        if ho : 64 ≤ cap ∧ cap ≤ 8388608 ∧ cap % 4 = 0 then
          { width := w, height := h, cmdWords := cw, outCap := cap, compressor := z, width_range := hw,
            height_range := hh, cmdWords_range := hc, outCap_range := ho }
        else Config.thisInstance
      else Config.thisInstance
    else Config.thisInstance
  else Config.thisInstance

/-- The instance of `config`, idle after the reset clear. -/
def idle (w h cw cap : Nat) (z : Compressor) : State :=
  resetClear (State.powerUp (config w h cw cap z))

/-- A running machine of `w` by `h` pixels, 8 command words, with `ws` in CMD from `pc` on. -/
def running (w h pc : Nat) (ws : List Word) : State :=
  { State.withCmdWords { idle w h 8 256 .stored with pc := BitVec.ofNat 32 pc } pc ws with
    status := { busy := true, done := false, fault := false, busyErr := false, fcode := .none } }

/-- The state after one step. -/
def after (s : State) : State :=
  match step s with
  | .next t => t
  | .fault _ => s
  | .refused _ => s

/-- Do these words decode to this packet, with nothing left over? -/
def decodes (ws : List Word) (i : Instr) : Bool :=
  match decode ws with
  | .ok p => decide (p = (i, []))
  | .error _ => false

/-- Are these words refused, for this reason? -/
def refuses (ws : List Word) (r : Reject) : Bool :=
  match decode ws with
  | .ok _ => false
  | .error e => decide (e = r)

/-- The pixels with a non-zero alpha, row by row. -/
def drawn (s : State) : List (Nat × Nat) :=
  (List.range s.cfg.height).flatMap (fun y : Nat =>
    ((List.range s.cfg.width).filter (fun x : Nat => (pixelAt s x y).a != 0)).map (fun x : Nat => (x, y)))

/-- STATUS, FAULT_INFO and PC, which tell a fault. -/
def report (s : State) : Word × Word × Word := (regRead s .status, s.faultInfo, s.pc)

/-! ### WellFormed: R60 is the one check the types do not make -/

theorem test_wellFormed_crcdata : (Instr.crcdata 5 [0, 0]).wellFormed = true := by decide

theorem test_illFormed_crcdata :
    (Instr.crcdata 5 [0]).wellFormed = false ∧ (Instr.crcdata 4 [0, 0]).wellFormed = false ∧
      (Instr.crcdata 0 [0]).wellFormed = false := by decide

/-! ### Decoding, from the fields of R58 and R59 written out -/

theorem test_decode_nop : decodes [0b00000000000000000000000000000000] .nop = true := by decide

theorem test_decode_end : decodes [0b00000000000000000000000000000001] .endRun = true := by decide

/-- `setpal shadow, 1, 2, 3` (R66): P = 3 in bits 9:8; B, G, R from bit 23 down. -/
theorem test_decode_setpal :
    decodes [0b00000000000000000000001100000010, 0b00000000000000110000001000000001]
      (.setpal .shadow { r := 1, g := 2, b := 3 }) = true := by decide

theorem test_decode_clear : decodes [0b00000000000000000000000000000011] .clear = true := by decide

/-- `pixel -2, 5, 1, 2, 3, 4`: Y = 5 in bits 31:16, X = 0xFFFE in bits 15:0; A, B, G, R from bit 31 down. -/
theorem test_decode_pixel :
    decodes [0x00000010, 0b00000000000001011111111111111110, 0b00000100000000110000001000000001]
      (.pixel 0xFFFE 5 { r := 1, g := 2, b := 3, a := 4 }) = true := by decide

/-- `rect highlight, 1, 2, 3, -4`: P = 2; Y0 over X0, H = 0xFFFC over W = 3. -/
theorem test_decode_rect :
    decodes [0b00000000000000000000001000010001, 0x00020001, 0xFFFC0003] (.rect .highlight 1 2 3 0xFFFC) = true := by decide

/-- `circle accent, 2, 3, -1`: RAD 0x0000FFFF. -/
theorem test_decode_circle :
    decodes [0b00000000000000000000000100010010, 0x00030002, 0x0000FFFF] (.circle .accent 2 3 0xFFFF) = true := by decide

theorem test_decode_rrect :
    decodes [0b00000000000000000000000000010011, 0x00020001, 0x00040003, 0x00000005] (.rrect .background 1 2 3 4 5) =
      true := by decide

theorem test_decode_crcinit : decodes [0b00000000000000000000000000100000] .crcinit = true := by decide

/-- N = 5 in bits 31:16, so two data words; the padding of the second is kept. -/
theorem test_decode_crcdata :
    decodes [0b00000000000001010000000000100001, 0x38373635, 0xAABBCC39] (.crcdata 5 [0x38373635, 0xAABBCC39]) =
      true := by decide

theorem test_decode_encode : decodes [0b00000000000000000000000000110000] .encode = true := by decide

/-- RA2, RA9 (R64), CT5 (R63), CK9 (R58), CT8 (R109: too few words), and no word at all. -/
theorem test_decode_refuses :
    refuses [0x00000302, 0x01000000] (.reservedField 0x00000302) = true ∧
      refuses [0x00000012, 0, 0x00010000] (.reservedField 0x00000012) = true ∧
      refuses [0x00000004] (.illegalOpcode 0x00000004) = true ∧ refuses [0x0000FF21] (.reservedField 0x0000FF21) = true ∧
      refuses [0x00000010] (.truncated 0x00000010) = true ∧ refuses [] .noHeader = true := by decide

/-- The opcode table numbers the second word's bits from 32 on; bits above the row's are 0. -/
theorem test_decodeTableWord :
    decodeTableWord 32 0x0003020100000302 = some (.setpal .shadow { r := 0, g := 0, b := 0 }) ∧
      decodeTableWord 64 0x0003020100000302 = some (.setpal .shadow { r := 1, g := 2, b := 3 }) ∧
      decodeTableWord 32 0x00010021 = some (.crcdata 1 [0]) := by decide

theorem test_withFetchWord : (after (State.reset.withFetchWord 32 0x00000001)).pc = 1 ∧
    (after (State.reset.withFetchWord 32 0x00000001)).status.done = true := by decide

/-! ### Commands -/

/-- CT1. -/
theorem test_nop : after (running 1 1 5 [0x00000000]) = { running 1 1 5 [0x00000000] with pc := 6 } := by decide

/-- CT2. -/
theorem test_end : report (after (running 1 1 5 [0x00000001])) = (0x00000002, 0, 6) := by decide

/-- RA1. -/
theorem test_setpal :
    regRead (after (running 1 1 0 [0x00000102, 0x003264C8])) (.pal .accent) = 0x003264C8 ∧
      (after (running 1 1 0 [0x00000102, 0x003264C8])).pc = 2 := by decide

/-- RA3, its two steps on one pixel. -/
theorem test_clear :
    canvasList (after (after (running 2 1 0 [0x00000010, 0x00000000, 0x04030201, 0x00000003]))) = [0, 0, 0, 0, 0, 0, 0, 0] := by
  decide

/-- P2 words 5 to 7: bytes 01 02 03 04 (R84's example). -/
theorem test_pixel :
    canvasList (after (running 2 1 0 [0x00000010, 0x00000000, 0x04030201])) = [1, 2, 3, 4, 0, 0, 0, 0] := by decide

/-- RA4 (x = -1) and S4 (x = W): nothing is written and PC advances by 3. -/
theorem test_pixel_clipped :
    (after (running 2 2 0 [0x00000010, 0x0000FFFF, 0x04030201])).canvas = [] ∧
      (after (running 2 2 0 [0x00000010, 0x00000002, 0x04030201])).canvas = [] ∧
      (after (running 2 2 0 [0x00000010, 0x00000002, 0x04030201])).pc = 3 := by decide

/-- The RECT table, row (-2, -2, 4, 4). -/
theorem test_rect :
    drawn (after (running 5 5 0 [0x00000011, 0xFFFEFFFE, 0x00040004])) = [(0, 0), (1, 0), (0, 1), (1, 1)] := by
  decide +kernel

/-- The RECT table, row (1, 1, -2, 3). -/
theorem test_rect_negative : (after (running 5 5 0 [0x00000011, 0x00010001, 0x0003FFFE])).canvas = [] := by decide +kernel

/-- S9. -/
theorem test_circle :
    drawn (after (running 5 5 0 [0x00000112, 0x00020002, 0x00000001])) = [(2, 1), (1, 2), (2, 2), (3, 2), (2, 3)] := by
  decide +kernel

/-- RA7. -/
theorem test_circle_clipped :
    drawn (after (running 5 5 0 [0x00000012, 0x00000000, 0x00000002])) = [(0, 0), (1, 0), (2, 0), (0, 1), (1, 1), (0, 2)] := by
  decide +kernel

/-- RA10. -/
theorem test_rrect :
    drawn (after (running 5 5 0 [0x00000013, 0xFFFFFFFE, 0x00040006, 0x00000001])) =
      [(0, 0), (1, 0), (2, 0), (3, 0), (0, 1), (1, 1), (2, 1), (3, 1), (0, 2), (1, 2), (2, 2)] := by decide +kernel

/-- The RRECT table: (4, 4, 2) faults OPERAND_RANGE; RA11: a reserved bit is found before the range. -/
theorem test_rrect_range :
    report (after (running 5 5 0 [0x00000013, 0x00010001, 0x00040004, 0x00000002])) = (0x00000404, 0x00000013, 0) ∧
      report (after (running 5 5 0 [0x00000013, 0x00010001, 0x00040004, 0x00010001])) = (0x00000304, 0x00000013, 0) := by
  decide +kernel

/-- CK5. -/
theorem test_crcinit :
    (after { running 1 1 0 [0x00000020] with crcAcc := 0x340BC6D9 }).crcAcc = 0xFFFFFFFF := by decide

/-- CK1. -/
theorem test_crcdata :
    (after (running 1 1 0 [0x00090021, 0x34333231, 0x38373635, 0x00000039])).crcAcc = 0x340BC6D9 := by decide +kernel

/-- CK3: the padding is ignored. -/
theorem test_crcdata_padding :
    regRead (after (running 1 1 0 [0x00010021, 0xDEADBE61])) .crcValue = 0xE8B7BE43 := by decide +kernel

/-- EN1, whose file is a 1 by 1 transparent black image. -/
theorem test_encode :
    (after (running 1 1 0 [0x00000030])).outLen = 73 ∧
      outList (after (running 1 1 0 [0x00000030])) 0 =
        [0x89, 0x50, 0x4E, 0x47, 0x0D, 0x0A, 0x1A, 0x0A, 0x00, 0x00, 0x00, 0x0D, 0x49, 0x48, 0x44, 0x52, 0x00, 0x00, 0x00, 0x01,
         0x00, 0x00, 0x00, 0x01, 0x08, 0x06, 0x00, 0x00, 0x00, 0x1F, 0x15, 0xC4, 0x89, 0x00, 0x00, 0x00, 0x10, 0x49, 0x44, 0x41,
         0x54, 0x78, 0x01, 0x01, 0x05, 0x00, 0xFA, 0xFF, 0x00, 0x00, 0x00, 0x00, 0x00, 0x00, 0x05, 0x00, 0x01, 0x64, 0x78, 0x95,
         0x38, 0x00, 0x00, 0x00, 0x00, 0x49, 0x45, 0x4E, 0x44, 0xAE, 0x42, 0x60, 0x82] := by decide +kernel

/-- EN4, and EN3's fault on a small instance: 73 bytes do not fit 64. -/
theorem test_encode_faults :
    report (after { running 1 1 0 [0x00000030] with cfg := config 1 1 8 256 .failing }) = (0x00000604, 0x00000030, 0) ∧
      report (after { running 1 1 0 [0x00000030] with cfg := config 1 1 8 64 .stored }) = (0x00000504, 0x00000030, 0) := by
  decide +kernel

/-! ### Faults of a packet, and the host -/

/-- CT4 (here 8 words), CT5, CT6, CK8. -/
theorem test_faults :
    report (after (running 1 1 8 [])) = (0x00000104, 0, 8) ∧
      report (after (running 1 1 0 [0x00000004])) = (0x00000204, 0x00000004, 0) ∧
      report (after (running 1 1 0 [0x00000101])) = (0x00000304, 0x00000101, 0) ∧
      report (after (running 1 1 6 [0x00080021, 0])) = (0x00000104, 0x00080021, 6) := by decide

/-- CT10: a busy write to PC and to a CMD word sets BUSYERR and nothing else. -/
theorem test_busy_guard :
    regRead (writeOffset 7 0x01C (running 1 1 0 [0])) .status = 0x00000009 ∧
      (writeOffset 7 0x01C (running 1 1 0 [0])).pc = 0 ∧
      cmdWord (writeOffset 7 0x10000 (running 1 1 0 [0])) 0 = 0 := by decide

/-- CT11: SRST wins over START and over BUSY; CMD is kept. -/
theorem test_soft_reset :
    regRead (writeOffset 3 0x010 (running 1 1 0 [7])) .status = 0x00000001 ∧
      cmdWord (writeOffset 3 0x010 (running 1 1 0 [7])) 0 = 7 ∧
      regRead (after (writeOffset 3 0x010 (running 1 1 0 [7]))) .status = 0x00000000 := by decide

/-- CT12: `irq` follows DONE and DONE_IE, and a write of 2 to STATUS drops it. -/
theorem test_irq :
    irq (after { running 1 1 0 [0x00000001] with ie := IrqEnable.ofWord 0x00000002 }) = true ∧
      irq (writeOffset 2 0x014 (after { running 1 1 0 [0x00000001] with ie := IrqEnable.ofWord 0x00000002 })) = false := by
  decide

/-- CT16, CT17. -/
theorem test_unmapped :
    readOffset (idle 1 1 8 64 .stored) 9 0x40 = 0 ∧ readOffset (idle 1 1 8 64 .stored) 9 0x5000 = 0 ∧
      readOffset (idle 1 1 8 64 .stored) 9 0x400004 = 0 ∧ readOffset (idle 1 1 8 64 .stored) 9 0 = 0x504E4743 ∧
      writeOffset 5 0 (idle 1 1 8 64 .stored) = idle 1 1 8 64 .stored := by decide

/-- R10's table: PC, CRC_ACC, CRC_VALUE, OUT_LEN and the four palette entries by their offsets, each with a value of its own. -/
theorem test_register_map :
    [0x01C, 0x024, 0x028, 0x02C, 0x030, 0x034, 0x038, 0x03C].map
        (readOffset
          { idle 1 1 8 64 .stored with
            pc := 1
            crcAcc := 0x340BC6D9
            outLen := 2
            pal :=
              { background := { r := 3, g := 0, b := 0 }, accent := { r := 4, g := 0, b := 0 }
                highlight := { r := 5, g := 0, b := 0 }, shadow := { r := 6, g := 7, b := 8 } } } 9) =
      [1, 0x340BC6D9, 0xCBF43926, 2, 3, 4, 5, 0x00080706] := by decide

/-- The host writes END into CMD and starts a run (R126): one step later the run has ended. -/
theorem test_run :
    report (after (writeOffset 1 0x10 (writeOffset 0x00000001 0x10000 (idle 1 1 8 64 .stored)))) = (0x00000002, 0, 1) := by
  decide

/-! ### Witnesses of the statements' hypotheses -/

/-- A machine about to run NOP. -/
def atNop : State := running 1 1 0 [0x00000000]

/-- Its successor. -/
theorem atNop_step : step atNop = .next { atNop with pc := 1 } := rfl

theorem test_witness_DecodeOfEncodeIsThePacket : (Instr.crcdata 5 [1, 2]).wellFormed = true := by decide

theorem test_witness_DecodedWordsAreThePacketsEncoding :
    decode [0x00010021, 0xDEADBE61, 7] = .ok (.crcdata 1 [0xDEADBE61], [7]) := rfl

theorem test_witness_HeaderSelectsOneMnemonic : (0x00000302 : Word) &&& Op.setpal.headerMask = Op.setpal.headerMatch := by decide

theorem test_witness_StepRunsTheDecodedPacket :
    atNop.runsPacket = true ∧ decode (fetchPacket atNop) = .ok (.nop, []) := ⟨by decide, rfl⟩

theorem test_witness_StepRunsThePacketInCmd :
    (running 1 1 6 [0x00000102, 0x003264C8]).runsPacket = true ∧
      (running 1 1 6 [0x00000102, 0x003264C8]).pc.toNat + (encode (.setpal .accent { r := 200, g := 100, b := 50 })).length ≤
        (running 1 1 6 [0x00000102, 0x003264C8]).cfg.cmdWords ∧
      ∀ k, k < (encode (.setpal .accent { r := 200, g := 100, b := 50 })).length →
        cmdWord (running 1 1 6 [0x00000102, 0x003264C8])
            ((running 1 1 6 [0x00000102, 0x003264C8]).pc.toNat + k) =
          (encode (.setpal .accent { r := 200, g := 100, b := 50 })).getD k 0 := by decide

/-- One state for each case of the match: a fault and a packet that runs. -/
theorem test_witness_StepIsCheckPacketThenThePacket :
    (running 1 1 8 []).runsPacket = true ∧ checkPacket (running 1 1 8 []) 8 = some (.cmdBounds, 0) ∧
      atNop.runsPacket = true ∧ checkPacket atNop 0 = none := by decide

/-- The ends of the four ranges. -/
theorem test_witness_IllegalOpcodeFaults :
    ∀ op ∈ [0x04, 0x0F, 0x14, 0x1F, 0x22, 0x2F, 0x31, 0xFF],
      (running 1 1 0 [BitVec.ofNat 32 op]).runsPacket = true ∧
        (running 1 1 0 [BitVec.ofNat 32 op]).pc.toNat < (running 1 1 0 [BitVec.ofNat 32 op]).cfg.cmdWords ∧
        (opField (cmdWord (running 1 1 0 [BitVec.ofNat 32 op]) 0)).toNat = op := by decide

/-- A reserved header bit; an RGB, a RAD of CIRCLE and of RRECT with theirs, each packet ending where CMD ends; a CRCDATA. -/
theorem test_witness_ReservedBitFaults :
    (running 1 1 0 [0x80000000]).runsPacket = true ∧ opField 0x80000000 = Op.nop.code ∧
      (0x80000000 : Word) &&& Op.nop.headerMask ≠ Op.nop.headerMatch ∧
      (cmdWord (running 1 1 6 [0x00000002, 0x80000000]) 7).extractLsb' 24 8 ≠ 0 ∧
      (cmdWord (running 1 1 5 [0x00000012, 0, 0x00010000]) 7).extractLsb' 16 16 ≠ 0 ∧
      (cmdWord (running 1 1 4 [0x00000013, 0, 0, 0x80000000]) 7).extractLsb' 16 16 ≠ 0 ∧
      6 + Op.setpal.length 0x00000002 ≤ (running 1 1 6 []).cfg.cmdWords ∧
      5 + Op.circle.length 0x00000012 ≤ (running 1 1 5 []).cfg.cmdWords ∧
      4 + Op.rrect.length 0x00000013 ≤ (running 1 1 4 []).cfg.cmdWords ∧
      opField 0x00050021 = Op.crcdata.code ∧ (0x00050021 : Word) &&& Op.crcdata.headerMask = Op.crcdata.headerMatch ∧
      5 + Op.crcdata.length 0x00050021 ≤ (running 1 1 5 []).cfg.cmdWords := by decide

theorem test_witness_FetchPastCmdFaults :
    (running 1 1 8 []).runsPacket = true ∧ (running 1 1 8 []).cfg.cmdWords ≤ (running 1 1 8 []).pc.toNat := by decide

theorem test_witness_IdleEngineKeepsState :
    (idle 1 1 8 64 .stored).agenda = [] ∧ (idle 1 1 8 64 .stored).status.busy = false := by decide

theorem test_witness_AgendaMovesAreTakenInOrder :
    ({ atNop with agenda := [.hostRead 4, .hardReset] } : State).agenda = .hostRead 4 :: [.hardReset] ∧
      ({ atNop with agenda := [.hostWrite 4 5] } : State).agenda = .hostWrite 4 5 :: [] ∧
      ({ atNop with agenda := [.hardReset] } : State).agenda = .hardReset :: [] ∧
      ({ atNop with agenda := [.engine, .hardReset] } : State).agenda = .engine :: [.hardReset] := by decide

theorem test_witness_SetpalWritesOneEntry : Pal.accent ≠ Pal.background := by decide

/-- The last pixel, the first two past an edge, and a byte on each side of a pixel. -/
theorem test_witness_PixelWritesOnePixel :
    onCanvas (idle 5 5 8 64 .stored).cfg (sint16 4) (sint16 4) = true ∧
      onCanvas (idle 5 5 8 64 .stored).cfg (sint16 5) (sint16 0) = false ∧
      onCanvas (idle 5 5 8 64 .stored).cfg (sint16 0) (sint16 0xFFFF) = false ∧
      95 < pixelAddr (idle 5 5 8 64 .stored).cfg (sint16 4) (sint16 4) ∧
      pixelAddr (idle 5 5 8 64 .stored).cfg (sint16 4) (sint16 4) + 4 ≤ 100 := by decide

theorem test_witness_RectPaintsItsBox :
    onCanvas (idle 5 5 8 64 .stored).cfg 4 4 = true ∧ (idle 5 5 8 64 .stored).cfg.canvasBytes ≤ 100 := by decide

theorem test_witness_CirclePaintsItsDisc :
    onCanvas (idle 5 5 8 64 .stored).cfg 0 0 = true ∧ (idle 5 5 8 64 .stored).cfg.canvasBytes ≤ 100 := by decide

/-- The smallest admitted box and the largest admitted radius. -/
theorem test_witness_RrectPaintsTheRoundedBox :
    (0 ≤ sint16 0 ∧ 2 * sint16 0 < sint16 1 ∧ 2 * sint16 0 < sint16 1) ∧
      (0 ≤ sint16 16383 ∧ 2 * sint16 16383 < sint16 32767 ∧ 2 * sint16 16383 < sint16 32767) ∧
      onCanvas (idle 5 5 8 64 .stored).cfg 4 0 = true := by decide

theorem test_witness_RrectOutOfRangeFaults :
    ¬ (0 ≤ sint16 2 ∧ 2 * sint16 2 < sint16 4 ∧ 2 * sint16 2 < sint16 5) ∧
      ¬ (0 ≤ sint16 0xFFFF ∧ 2 * sint16 0xFFFF < sint16 4 ∧ 2 * sint16 0xFFFF < sint16 4) := by decide

/-- No data byte, and a full last word. -/
theorem test_witness_CrcdataUpdatesTheAccumulator :
    ([] : List Word).length = ((0 : Half).toNat + 3) / 4 ∧ ([1, 2] : List Word).length = ((8 : Half).toNat + 3) / 4 := by decide

theorem test_witness_ChecksumSplits :
    ([1] : List Word).length = dataWords (3 : Half).toNat ∧ ([1, 2] : List Word).length = dataWords (5 : Half).toNat := by decide

/-- The stream of EN1's canvas. -/
def blankStream : Bytes := storedStream [0, 0, 0, 0, 0]

theorem test_witness_EncodeWritesTheFile :
    zcompress (running 1 1 0 []).cfg.compressor (scanStream (running 1 1 0 [])) = some blankStream ∧
      (pngFile (running 1 1 0 []).cfg blankStream).length ≤ (running 1 1 0 []).cfg.outCap := by decide +kernel

theorem test_witness_FailedEncodeLeavesNoOutput :
    zcompress (idle 1 1 8 64 .failing).cfg.compressor (scanStream (idle 1 1 8 64 .failing)) = none ∧
      zcompress (idle 1 1 8 64 .stored).cfg.compressor (scanStream (idle 1 1 8 64 .stored)) = some blankStream ∧
      (idle 1 1 8 64 .stored).cfg.outCap < (pngFile (idle 1 1 8 64 .stored).cfg blankStream).length := by decide +kernel

theorem test_witness_FillRectIsTheSpecsLoop : (running 5 5 0 []).memoryOk = true := by decide

theorem test_witness_FillCircleIsTheSpecsLoop : (running 5 5 0 []).memoryOk = true := by decide

theorem test_witness_ScanStreamIsTheFilteredRows : (putCanvas (running 5 5 0 []) 99 1).memoryOk = true := by decide

theorem test_witness_CompressedStreamInflatesToTheInput :
    zcompress .stored [0, 0, 0, 0, 0] = some blankStream := by decide +kernel

theorem test_witness_EncodedFileReadsBackAsTheCanvas :
    (running 1 1 0 []).memoryOk = true ∧
      zcompress (running 1 1 0 []).cfg.compressor (scanStream (running 1 1 0 [])) = some blankStream ∧
      (pngFile (running 1 1 0 []).cfg blankStream).length ≤ (running 1 1 0 []).cfg.outCap := by decide +kernel

theorem test_witness_BusAddressSelectsTheAlignedWord : 0xFFFFFF < 0x1000000 := by decide

/-- Both ranges at both ends, and a read-only register. -/
theorem test_witness_UnlistedAndReadOnlyOffsetsIgnoreWrites :
    (∀ off ∈ [0x40, 0xFFFF, 0x10000 + 4 * atNop.cfg.cmdWords, 0x3FFFFF],
      (0x40 ≤ off ∧ off < 0x10000) ∨ (0x10000 + 4 * atNop.cfg.cmdWords ≤ off ∧ off < 0x400000)) ∧
      0x02C ∈ [0x000, 0x004, 0x008, 0x00C, 0x020, 0x024, 0x028, 0x02C] := by decide

theorem test_witness_BusyGuardDropsWrites :
    atNop.status.busy = true ∧ 7 < atNop.cfg.cmdWords ∧ (0x00000001 : Word).getLsbD 0 = true ∧
      (0x00000001 : Word).getLsbD 1 = false ∧ (0x00000003 : Word).getLsbD 1 = true := by decide

theorem test_witness_VolatileReadsAreFreeOthersExact :
    atNop.status.busy = true ∧ 0x400000 ≤ 0xFFFFFC ∧ 0xFFFFFC < 0x1000000 ∧ 7 < atNop.cfg.cmdWords := by decide

/-- A word for each clause, idle and busy. -/
theorem test_witness_CtrlStartsOrResets :
    (0x00000002 : Word).getLsbD 1 = true ∧ (0x00000001 : Word).getLsbD 1 = false ∧ (0x00000001 : Word).getLsbD 0 = true ∧
      (0xFFFFFFFC : Word).getLsbD 1 = false ∧ (0xFFFFFFFC : Word).getLsbD 0 = false ∧ atNop.status.busy = true ∧
      (idle 1 1 8 64 .stored).status.busy = false := by decide

theorem test_witness_WritableRegistersReadBack :
    (idle 1 1 8 64 .stored).status.busy = false ∧ Pal.shadow ≠ Pal.background := by decide

/-- The last word of CMD idle and busy, the first past it, the last of the window. -/
theorem test_witness_CmdWindowReadsBack :
    7 < (idle 1 1 8 64 .stored).cfg.cmdWords ∧ (idle 1 1 8 64 .stored).status.busy = false ∧ 7 < atNop.cfg.cmdWords ∧
      atNop.status.busy = true ∧ (idle 1 1 8 64 .stored).cfg.cmdWords ≤ 8 ∧ 0x3FFF < 0x4000 := by decide

theorem test_witness_CanvasWindowIsPixelWords :
    (idle 5 5 8 64 .stored).status.busy = false ∧
      24 < (idle 5 5 8 64 .stored).cfg.width * (idle 5 5 8 64 .stored).cfg.height ∧
      (idle 5 5 8 64 .stored).cfg.width * (idle 5 5 8 64 .stored).cfg.height ≤ 25 ∧ atNop.status.busy = true := by decide

theorem test_witness_OutWindowIsLittleEndian :
    (idle 5 5 8 64 .stored).status.busy = false ∧ 4 * 15 < (idle 5 5 8 64 .stored).cfg.outCap ∧
      (idle 5 5 8 64 .stored).cfg.outCap ≤ 4 * 16 ∧ atNop.status.busy = true := by decide

theorem test_witness_SoftResetLeavesTheResetValues : (0x00000003 : Word).getLsbD 1 = true := by decide

theorem test_witness_HardResetLeavesTheResetValues :
    ({ atNop with agenda := [.hardReset] } : State).agenda = .hardReset :: [] := by decide

theorem test_witness_ResetClearZeroesTheCanvas :
    State.reset.agenda = [] ∧ State.reset.status.busy = true ∧ State.reset.clrPend = true := by decide

theorem test_witness_StepKeepsTheInvariant :
    atNop.Inv = true ∧ step atNop = .next { atNop with pc := 1 } := ⟨by decide, atNop_step⟩

theorem test_witness_NoStepChangesTheParameters : step atNop = .next { atNop with pc := 1 } := atNop_step

theorem test_witness_EachCommandWritesOnlyItsState :
    exec .nop atNop = .next { atNop with pc := 1 } ∧ Instr.nop.op ∉ [Op.crcinit, .crcdata] := ⟨rfl, by decide⟩

theorem test_witness_CmdIsFixedDuringARun :
    atNop.status.busy = true ∧ atNop.agenda.head? ≠ some .hardReset ∧ step atNop = .next { atNop with pc := 1 } :=
  ⟨by decide, by decide, atNop_step⟩

/-- A step that does not fault. -/
theorem test_witness_PacketStepMovesPcByItsLength :
    atNop.runsPacket = true ∧ atNop.status.fault = false ∧ step atNop = .next { atNop with pc := 1 } ∧
      ({ atNop with pc := 1 } : State).status.fault = false := ⟨by decide, by decide, atNop_step, by decide⟩

/-- A step that faults. -/
theorem test_witness_FaultsArePrecise :
    (running 1 1 8 []).runsPacket = true ∧ (running 1 1 8 []).status.fault = false ∧
      step (running 1 1 8 []) = .next (raiseFault .cmdBounds 0 (running 1 1 8 [])) ∧
      (raiseFault .cmdBounds 0 (running 1 1 8 [])).status.fault = true := ⟨by decide, by decide, rfl, by decide⟩

theorem test_witness_EveryRunEnds : atNop.runsPacket = true := by decide

end Sys2Proof.Tests
end

section
/-! SUPPORT and PROOFS. Host writes by the offset's target, and the statements on read-only registers, the busy guard, CTRL and
the reset clear (10_state.md R12 to R14, R20, R34). -/

namespace Sys2Proof.Machine

/-! ### The register at a listed offset -/

/-- Every row of R10's register map is found at its offset. -/
theorem regTarget_of_mem_regMap : ∀ e ∈ regMap, e.1 < 0x1000 ∧ regTarget e.1 = .reg e.2 := by decide

theorem targetAt_of_mem_regMap (c : Config) {off : Nat} {r : Reg} (h : (off, r) ∈ regMap) : targetAt c off = .reg r := by
  obtain ⟨hlt, hreg⟩ := regTarget_of_mem_regMap (off, r) h
  rw [targetAt_reg c hlt, hreg]

theorem writeOffset_of_mem_regMap {off : Nat} {r : Reg} (h : (off, r) ∈ regMap) (data : Word) (s : State) :
    writeOffset data off s = regWrite data s r := by
  rw [writeOffset, targetAt_of_mem_regMap s.cfg h, targetWrite]

theorem writeOffset_ctrl (data : Word) (s : State) : writeOffset data 0x010 s = writeCtrl data s :=
  writeOffset_of_mem_regMap (r := .ctrl) (by decide) data s

/-! ### Unmapped offsets -/

theorem writeOffset_unmapped {s : State} {off : Nat} (h : targetAt s.cfg off = .unmapped) (data : Word) :
    writeOffset data off s = s := by rw [writeOffset, h, targetWrite]

theorem readOffset_unmapped {s : State} {off : Nat} (h : targetAt s.cfg off = .unmapped) (d : Word) :
    readOffset s d off = 0 := by simp [readOffset, h, targetVolatile, targetRead]

/-! ### Read-only registers (R12) -/

/-- The registers that the host cannot write. -/
def Reg.readOnly : Reg → Bool
  | .id | .cfgDim | .cfgCmdw | .cfgOutcap | .faultInfo | .crcAcc | .crcValue | .outLen => true
  | .ctrl | .status | .ie | .pc | .pal _ => false

theorem regWrite_of_readOnly {r : Reg} (h : r.readOnly = true) (data : Word) (s : State) : regWrite data s r = s := by
  cases r <;> cases h <;> rfl

/-- The offsets that R10's table marks read-only. -/
theorem readOnly_at_offset :
    ∀ off ∈ [0x000, 0x004, 0x008, 0x00C, 0x020, 0x024, 0x028, 0x02C], ∃ e ∈ regMap, e.1 = off ∧ e.2.readOnly = true := by
  decide

theorem writeOffset_readOnly {off : Nat} (h : off ∈ [0x000, 0x004, 0x008, 0x00C, 0x020, 0x024, 0x028, 0x02C])
    (data : Word) (s : State) : writeOffset data off s = s := by
  obtain ⟨⟨_, r⟩, hmem, rfl, hro⟩ := readOnly_at_offset off h
  rw [writeOffset_of_mem_regMap hmem, regWrite_of_readOnly hro]

/-- Settles O39: both ranges are unmapped in the address map, and each listed register is read-only. -/
theorem unlistedAndReadOnlyOffsetsIgnoreWrites : Obligations.UnlistedAndReadOnlyOffsetsIgnoreWrites := by
  unfold Obligations.UnlistedAndReadOnlyOffsetsIgnoreWrites
  intro s d data off
  constructor
  · intro hrange
    have hun : targetAt s.cfg off = .unmapped := targetAt_unmapped s.cfg hrange
    exact ⟨readOffset_unmapped hun d, writeOffset_unmapped hun data⟩
  · intro hro
    exact writeOffset_readOnly hro data s

/-! ### CTRL (R20) -/

theorem writeCtrl_srst {data : Word} (h : data.getLsbD 1 = true) (s : State) : writeCtrl data s = softReset s := by
  rw [writeCtrl, if_pos h]

theorem writeCtrl_start {data : Word} (h1 : data.getLsbD 1 = false) (h0 : data.getLsbD 0 = true) (s : State) :
    writeCtrl data s = guarded s (startRun s) := by
  rw [writeCtrl, h1, h0]
  rfl

theorem writeCtrl_neither {data : Word} (h1 : data.getLsbD 1 = false) (h0 : data.getLsbD 0 = false) (s : State) :
    writeCtrl data s = s := by
  rw [writeCtrl, h1, h0]
  rfl

theorem readOffset_ctrl (s : State) (d : Word) : readOffset s d 0x010 = 0 := by
  have ht : targetAt s.cfg 0x010 = .reg .ctrl := targetAt_of_mem_regMap s.cfg (by decide)
  simp [readOffset, ht, targetVolatile, regVolatile, targetRead, regRead]

/-- Settles O42: a write to CTRL is `writeCtrl`, split on SRST, START and BUSY. -/
theorem ctrlStartsOrResets : Obligations.CtrlStartsOrResets := by
  unfold Obligations.CtrlStartsOrResets
  intro s data d
  rw [writeOffset_ctrl]
  refine ⟨readOffset_ctrl s d, fun hsrst => writeCtrl_srst hsrst s, ?idle, ?busy, fun h1 h0 => writeCtrl_neither h1 h0 s⟩
  case idle =>
    intro h1 h0 hidle
    rw [writeCtrl_start h1 h0, guarded_idle hidle, startRun]
  case busy =>
    intro h1 h0 hbusy
    rw [writeCtrl_start h1 h0, guarded_busy hbusy]

/-! ### The busy guard (R14) -/

/-- The registers whose every write is guarded; of CTRL only START is. -/
def Reg.busyGuarded : Reg → Bool
  | .pc | .pal _ => true
  | .id | .cfgDim | .cfgCmdw | .cfgOutcap | .ctrl | .status | .ie | .faultInfo | .crcAcc | .crcValue | .outLen => false

theorem regWrite_of_busyGuarded {r : Reg} (h : r.busyGuarded = true) {s : State} (hb : s.status.busy = true)
    (data : Word) : regWrite data s r = { s with status := { s.status with busyErr := true } } := by
  cases r <;> cases h <;> exact guarded_busy hb _

/-- PC and the palette, by their offsets. -/
theorem busyGuarded_at_offset :
    ∀ off ∈ [0x01C, 0x030, 0x034, 0x038, 0x03C], ∃ e ∈ regMap, e.1 = off ∧ e.2.busyGuarded = true := by decide

theorem writeOffset_busyGuarded {off : Nat} (h : off ∈ [0x01C, 0x030, 0x034, 0x038, 0x03C]) {s : State}
    (hb : s.status.busy = true) (data : Word) :
    writeOffset data off s = { s with status := { s.status with busyErr := true } } := by
  obtain ⟨⟨_, r⟩, hmem, rfl, hg⟩ := busyGuarded_at_offset off h
  rw [writeOffset_of_mem_regMap hmem, regWrite_of_busyGuarded hg hb]

theorem writeOffset_cmdWord {s : State} {i : Nat} (h : i < s.cfg.cmdWords) (data : Word) :
    writeOffset data (0x10000 + 4 * i) s = guarded s (putCmd s i data) := by
  rw [writeOffset, targetAt_cmd s.cfg h, targetWrite]

/-- Settles O40: the guarded writes by their target, then IE, STATUS and SRST, which no guard stands before. -/
theorem busyGuardDropsWrites : Obligations.BusyGuardDropsWrites := by
  unfold Obligations.BusyGuardDropsWrites
  intro s data off hb
  refine ⟨?dropped, writeOffset_of_mem_regMap (r := .ie) (by decide) data s,
    writeOffset_of_mem_regMap (r := .status) (by decide) data s, ?srst⟩
  case dropped =>
    rintro (hoff | ⟨i, hi, rfl⟩ | ⟨rfl, h0, h1⟩)
    · exact writeOffset_busyGuarded hoff hb data
    · rw [writeOffset_cmdWord hi, guarded_busy hb]
    · rw [writeOffset_ctrl, writeCtrl_start h1 h0, guarded_busy hb]
  case srst =>
    intro hsrst
    rw [writeOffset_ctrl, writeCtrl_srst hsrst]

/-! ### The reset clear (R34) -/

@[simp] theorem canvasByte_resetClear (s : State) (a : Nat) : canvasByte (resetClear s) a = 0 := rfl

theorem step_resetClear {s : State} (ha : s.agenda = []) (hb : s.status.busy = true) (hc : s.clrPend = true) :
    step s = .next (resetClear s) := by
  rw [step_of_agenda_nil ha, engineStep_clear hb hc]

/-- Settles O51: both resets set the two flags, and the step from there is `resetClear`. -/
theorem resetClearZeroesTheCanvas : Obligations.ResetClearZeroesTheCanvas := by
  unfold Obligations.ResetClearZeroesTheCanvas
  constructor
  · intro s
    simp
  · intro s ha hb hc
    exact ⟨resetClear s, step_resetClear ha hb hc, canvasByte_resetClear s, rfl⟩

end Sys2Proof.Machine
end

section
/-! SUPPORT and PROOFS. The bus address, the CMD window, and what each agent leaves of CMD during a run (20_memory.md R39,
R41, R54). -/

namespace Sys2Proof.Machine

/-! ### The bus address (R39) -/

theorem base_low : Config.base.extractLsb' 0 24 = 0 := extract_append_low Config.baseHigh 0

/-- The decoding of R39 from `BASE` on: bits 23:2 of the distance, as a byte offset. -/
theorem busOffset_base_add (x : Word) : busOffset (Config.base + x) = x.toNat / 4 % 2 ^ 22 * 4 := by
  have hsub : Config.base + x - Config.base = x := by rw [BitVec.add_comm, BitVec.add_sub_cancel]
  rw [busOffset, hsub, BitVec.extractLsb'_toNat, Nat.shiftRight_eq_div_pow]

/-- Settles O38: below 16 MiB neither the 32-bit offset nor its 22-bit word index wraps. -/
theorem busAddressSelectsTheAlignedWord : Obligations.BusAddressSelectsTheAlignedWord := by
  unfold Obligations.BusAddressSelectsTheAlignedWord
  refine ⟨base_low, fun off hoff => ?_⟩
  have hword : (BitVec.ofNat 32 off).toNat = off := by rw [BitVec.toNat_ofNat]; omega
  have hindex : off / 4 % 2 ^ 22 = off / 4 := by omega
  rw [busOffset_base_add, hword, hindex]

/-! ### The CMD window (R41) -/

theorem readOffset_cmdWord {s : State} {i : Nat} (h : i < s.cfg.cmdWords) (d : Word) :
    readOffset s d (0x10000 + 4 * i) = cmdWord s i := by
  simp [readOffset, targetAt_cmd s.cfg h, targetVolatile, targetRead]

theorem writeOffset_cmdWord_idle {s : State} {i : Nat} (h : i < s.cfg.cmdWords) (hidle : s.status.busy = false)
    (data : Word) : writeOffset data (0x10000 + 4 * i) s = putCmd s i data := by
  rw [writeOffset_cmdWord h, guarded_idle hidle]

theorem writeOffset_cmdWord_busy {s : State} {i : Nat} (h : i < s.cfg.cmdWords) (hbusy : s.status.busy = true)
    (data : Word) :
    writeOffset data (0x10000 + 4 * i) s = { s with status := { s.status with busyErr := true } } := by
  rw [writeOffset_cmdWord h, guarded_busy hbusy]

/-- The words of the CMD window past CMD_WORDS are unmapped. -/
theorem targetAt_past_cmdWords {c : Config} {i : Nat} (hpast : c.cmdWords ≤ i) (hwin : i < 0x4000) :
    targetAt c (0x10000 + 4 * i) = .unmapped := targetAt_unmapped c (.inr (by omega))

/-- Settles O45: a word of CMD is read by `cmdWord` and written by a guarded `putCmd`; past CMD_WORDS nothing is mapped. -/
theorem cmdWindowReadsBack : Obligations.CmdWindowReadsBack := by
  unfold Obligations.CmdWindowReadsBack
  intro s d data i
  refine ⟨fun hi => ⟨readOffset_cmdWord hi d, ?idle, fun hbusy => writeOffset_cmdWord_busy hi hbusy data⟩, ?past⟩
  case idle =>
    intro hidle
    rw [writeOffset_cmdWord_idle hi hidle]
    refine ⟨?same, ?other, rfl⟩
    case same => rw [readOffset_cmdWord (s := putCmd s i data) hi, cmdWord_putCmd, if_pos rfl]
    case other =>
      intro j hj
      rw [cmdWord_putCmd, if_neg hj]
  case past =>
    intro hpast hwin
    have hun : targetAt s.cfg (0x10000 + 4 * i) = .unmapped := targetAt_past_cmdWords hpast hwin
    exact ⟨readOffset_unmapped hun d, writeOffset_unmapped hun data⟩

/-! ### What keeps CMD (R54) -/

/-- What a word of CMD reads as depends on what the host wrote and on the count of hardware resets only. -/
theorem cmdWord_congr {s t : State} (hcmd : t.cmd = s.cmd) (hepoch : t.cmdEpoch = s.cmdEpoch) (i : Nat) :
    cmdWord t i = cmdWord s i := by rw [cmdWord, cmdWord, hcmd, hepoch]

/-- No packet writes CMD or counts a reset. -/
theorem exec_keeps_cmd {i : Instr} {s t : State} (h : exec i s = .next t) : t.cmd = s.cmd ∧ t.cmdEpoch = s.cmdEpoch := by
  cases i <;> cases h
  case setpal | pixel => simp
  case rrect => split <;> simp
  case encode =>
    split
    · simp
    · split <;> simp
  all_goals exact ⟨rfl, rfl⟩

theorem cmdWord_exec {i : Instr} {s t : State} (h : exec i s = .next t) (k : Nat) : cmdWord t k = cmdWord s k := by
  obtain ⟨hcmd, hepoch⟩ := exec_keeps_cmd h
  exact cmdWord_congr hcmd hepoch k

/-- The engine never writes CMD, busy or not. -/
theorem cmdWord_engineStep {s t : State} (h : engineStep s = .next t) (k : Nat) : cmdWord t k = cmdWord s k := by
  rcases engineStep_cases h with ⟨-, rfl⟩ | ⟨-, -, rfl⟩ | ⟨-, -, r, -, rfl⟩ | ⟨-, -, i, rest, -, hexec⟩
  · rfl
  · exact cmdWord_congr (resetClear_cmd s) (resetClear_cmdEpoch s) k
  · obtain ⟨code, info, -, hr⟩ := raiseReject_eq r s
    rw [hr]
    exact cmdWord_congr (raiseFault_cmd code info s) (raiseFault_cmdEpoch code info s) k
  · exact cmdWord_exec hexec k

theorem cmdWord_softReset (s : State) (k : Nat) : cmdWord (softReset s) k = cmdWord s k :=
  cmdWord_congr (softReset_cmd s) (softReset_cmdEpoch s) k

/-- A guarded write is dropped while BUSY, so it keeps CMD whatever it would have written. -/
theorem cmdWord_guarded_busy {s : State} (hb : s.status.busy = true) (t : State) (k : Nat) :
    cmdWord (guarded s t) k = cmdWord s k := by
  rw [guarded_busy hb]
  rfl

theorem cmdWord_writeCtrl_busy {s : State} (hb : s.status.busy = true) (data : Word) (k : Nat) :
    cmdWord (writeCtrl data s) k = cmdWord s k := by
  rw [writeCtrl]
  split
  · exact cmdWord_softReset s k
  · split
    · exact cmdWord_guarded_busy hb _ k
    · rfl

theorem cmdWord_regWrite_busy {s : State} (hb : s.status.busy = true) (data : Word) (r : Reg) (k : Nat) :
    cmdWord (regWrite data s r) k = cmdWord s k := by
  cases r
  case ctrl => exact cmdWord_writeCtrl_busy hb data k
  case pc | pal => exact cmdWord_guarded_busy hb _ k
  all_goals rfl

/-- A host write while BUSY keeps CMD, whichever offset it goes to. -/
theorem cmdWord_writeOffset_busy {s : State} (hb : s.status.busy = true) (data : Word) (off k : Nat) :
    cmdWord (writeOffset data off s) k = cmdWord s k := by
  rw [writeOffset]
  cases targetAt s.cfg off with
  | reg r => exact cmdWord_regWrite_busy hb data r k
  | cmdWord i => exact cmdWord_guarded_busy hb _ k
  | canvasWord i => rfl
  | outWord j => rfl
  | unmapped => rfl

/-- Settles O57: no agent's move but a hardware reset writes CMD while BUSY. -/
theorem cmdIsFixedDuringARun : Obligations.CmdIsFixedDuringARun := by
  unfold Obligations.CmdIsFixedDuringARun
  intro s t hb hrst hstep k
  rcases step_cases hstep with ⟨-, heng⟩ | ⟨m, rest, ha, hmove⟩
  · exact cmdWord_engineStep heng k
  · rcases hmove with ⟨-, heng⟩ | ⟨addr, -, rfl⟩ | ⟨addr, data, -, rfl⟩ | ⟨rfl, -⟩
    · exact cmdWord_engineStep heng k
    · rfl
    · exact cmdWord_writeOffset_busy (s := { s with agenda := rest }) hb data (busOffset addr) k
    · exact absurd (by rw [ha]; rfl) hrst

end Sys2Proof.Machine
end

section
/-! SUPPORT and PROOFS. What `decode` answers in terms of R109's tests, what is fetched of a packet that fits, and the statement
on reserved bits (30_encoding.md R64). -/

namespace Sys2Proof

/-! ### The answers of `decode` -/

theorem packetLen_of_opField {hdr : Word} {op : Op} (hop : opField hdr = op.code) : packetLen hdr = op.length hdr := by
  rw [packetLen, hop, opOf?_code]

theorem decode_reservedHeader {hdr : Word} {op : Op} (ops : List Word) (hop : opField hdr = op.code)
    (hmask : hdr &&& op.headerMask ≠ op.headerMatch) : decode (hdr :: ops) = .error (.reservedField hdr) := by
  rw [decode_cons, hop, opOf?_code]
  exact if_pos hmask

/-- The header may be the one with the reserved bit: the fault is the same. -/
theorem decode_reservedOperand {hdr : Word} {op : Op} {ops : List Word} (hop : opField hdr = op.code)
    (hlen : op.length hdr ≤ ops.length + 1) (hres : operandReservedOk op ops = false) :
    decode (hdr :: ops) = .error (.reservedField hdr) := by
  by_cases hmask : hdr &&& op.headerMask = op.headerMatch
  · rw [decode_cons, hop, opOf?_code]
    simp [hmask, Nat.not_lt.2 hlen, hres]
  · exact decode_reservedHeader ops hop hmask

/-- Words that pass every test of R109 are a packet. -/
theorem decode_accepts {hdr : Word} {op : Op} {ops : List Word} (hop : opField hdr = op.code)
    (hmask : hdr &&& op.headerMask = op.headerMatch) (hlen : op.length hdr ≤ ops.length + 1)
    (hres : operandReservedOk op ops = true) :
    decode (hdr :: ops) = .ok (buildPacket op hdr ops, ops.drop (op.length hdr - 1)) := by
  rw [decode_cons, hop, opOf?_code]
  simp [hmask, Nat.not_lt.2 hlen, hres]

/-- The operand word with reserved bits (R59), by mnemonic, has one that is 1. -/
theorem operandReservedOk_eq_false {op : Op} {ops : List Word}
    (h : (op = .setpal ∧ (operand ops 0).extractLsb' 24 8 ≠ 0) ∨ (op = .circle ∧ (operand ops 1).extractLsb' 16 16 ≠ 0) ∨
      (op = .rrect ∧ (operand ops 2).extractLsb' 16 16 ≠ 0)) : operandReservedOk op ops = false := by
  rcases h with ⟨rfl, h⟩ | ⟨rfl, h⟩ | ⟨rfl, h⟩ <;> exact beq_false_of_ne h

end Sys2Proof

namespace Sys2Proof.Machine

/-! ### The fetch of a packet -/

/-- The fetch at a header of mnemonic `op`. -/
theorem fetchPacket_of_opField {s : State} {op : Op} (hlt : s.pc.toNat < s.cfg.cmdWords)
    (hop : opField (cmdWord s s.pc.toNat) = op.code) :
    fetchPacket s = cmdWord s s.pc.toNat ::
      cmdWordsFrom s (s.pc.toNat + 1) (op.length (cmdWord s s.pc.toNat) - 1) := by
  rw [fetchPacket_eq, if_pos hlt, packetLen_of_opField hop]

/-- No operand word of a packet that fits is left out. -/
theorem length_operands_of_fits {s : State} {i n : Nat} (hfit : i + n ≤ s.cfg.cmdWords) :
    n ≤ (cmdWordsFrom s (i + 1) (n - 1)).length + 1 := by
  rw [length_cmdWordsFrom]
  omega

theorem operand_cmdWordsFrom {s : State} {i n k : Nat} (hk : k < n) (hcmd : i + k < s.cfg.cmdWords) :
    operand (cmdWordsFrom s i n) k = cmdWord s (i + k) := by
  rw [operand, List.getD_eq_getElem?_getD, getElem?_cmdWordsFrom, if_pos ⟨hk, hcmd⟩, Option.getD_some]

/-- Words that all lie in CMD are fetched as they stand there. -/
theorem cmdWordsFrom_of_fits {s : State} {i n : Nat} (hfit : i + n ≤ s.cfg.cmdWords) :
    cmdWordsFrom s i n = (List.range n).map (fun k => cmdWord s (i + k)) := by
  apply List.ext_getElem?
  intro k
  rw [getElem?_cmdWordsFrom, List.getElem?_map]
  by_cases hk : k < n
  · rw [if_pos ⟨hk, by omega⟩, List.getElem?_range hk, Option.map_some]
  · rw [if_neg (fun h => hk h.1), List.getElem?_eq_none (by simpa using hk), Option.map_none]

/-! ### Reserved bits (R64) -/

theorem step_of_decode_error {s : State} {r : Reject} (hrun : s.runsPacket = true)
    (hdec : decode (fetchPacket s) = .error r) : step s = .next (raiseReject r s) := by
  rw [step_of_runsPacket hrun, packetStep_error hdec]

theorem step_of_decode_ok {s : State} {i : Instr} {rest : List Word} (hrun : s.runsPacket = true)
    (hdec : decode (fetchPacket s) = .ok (i, rest)) : step s = exec i s := by
  rw [step_of_runsPacket hrun, packetStep_ok hdec]

/-- A reserved bit that is 1 in an operand word in CMD is seen by the decoder where the packet fits. -/
theorem operandReservedOk_fetched_eq_false {s : State} {op : Op} {hdr : Word} {i : Nat}
    (hfit : i + op.length hdr ≤ s.cfg.cmdWords)
    (h : (op = .setpal ∧ (cmdWord s (i + 1)).extractLsb' 24 8 ≠ 0) ∨
      (op = .circle ∧ (cmdWord s (i + 2)).extractLsb' 16 16 ≠ 0) ∨
      (op = .rrect ∧ (cmdWord s (i + 3)).extractLsb' 16 16 ≠ 0)) :
    operandReservedOk op (cmdWordsFrom s (i + 1) (op.length hdr - 1)) = false := by
  have hword : ∀ k, k + 1 < op.length hdr →
      operand (cmdWordsFrom s (i + 1) (op.length hdr - 1)) k = cmdWord s (i + (1 + k)) := by
    intro k hk
    rw [operand_cmdWordsFrom (by omega) (by omega), Nat.add_assoc]
  apply operandReservedOk_eq_false
  rcases h with ⟨rfl, h⟩ | ⟨rfl, h⟩ | ⟨rfl, h⟩
  · exact .inl ⟨rfl, by rwa [hword 0 (by simp [Op.length])]⟩
  · exact .inr (.inl ⟨rfl, by rwa [hword 1 (by simp [Op.length])]⟩)
  · exact .inr (.inr ⟨rfl, by rwa [hword 2 (by simp [Op.length])]⟩)

/-- A CRCDATA that fits decodes to its N and its data words, whatever they are. -/
theorem decode_fetchPacket_crcdata {s : State} (hlt : s.pc.toNat < s.cfg.cmdWords)
    (hop : opField (cmdWord s s.pc.toNat) = Op.crcdata.code)
    (hmask : cmdWord s s.pc.toNat &&& Op.crcdata.headerMask = Op.crcdata.headerMatch)
    (hfit : s.pc.toNat + Op.crcdata.length (cmdWord s s.pc.toNat) ≤ s.cfg.cmdWords) :
    ∃ rest, decode (fetchPacket s) = .ok (.crcdata (highHalf (cmdWord s s.pc.toNat))
      ((List.range (dataWords (highHalf (cmdWord s s.pc.toNat)).toNat)).map
        (fun k => cmdWord s (s.pc.toNat + 1 + k))), rest) := by
  have hlen : Op.crcdata.length (cmdWord s s.pc.toNat) = 1 + dataWords (highHalf (cmdWord s s.pc.toNat)).toNat := rfl
  have hdec := decode_accepts hop hmask (length_operands_of_fits hfit) rfl
  rw [← fetchPacket_of_opField hlt hop, buildPacket, hlen, Nat.add_sub_cancel_left,
    cmdWordsFrom_of_fits (by omega), List.take_of_length_le (by simp)] at hdec
  exact ⟨_, hdec⟩

/-- Settles O9: the decoder refuses a reserved bit of the header and one of an operand word alike, and of a CRCDATA's words it
tests nothing. -/
theorem reservedBitFaults : Obligations.ReservedBitFaults := by
  unfold Obligations.ReservedBitFaults
  intro s op hrun hlt hop
  constructor
  · intro hres
    have hdec : decode (fetchPacket s) = .error (.reservedField (cmdWord s s.pc.toNat)) := by
      rw [fetchPacket_of_opField hlt hop]
      rcases hres with hmask | ⟨hfit, hbit⟩
      · exact decode_reservedHeader _ hop hmask
      · exact decode_reservedOperand hop (length_operands_of_fits hfit) (operandReservedOk_fetched_eq_false hfit hbit)
    exact step_of_decode_error hrun hdec
  · rintro rfl hmask hfit
    obtain ⟨rest, hdec⟩ := decode_fetchPacket_crcdata hlt hop hmask hfit
    exact step_of_decode_ok hrun hdec

end Sys2Proof.Machine
end

section
/-! SUPPORT and PROOFS. The bytes a CRCDATA packet carries, what it accumulates, and the statements on the splitting law and the
printed table (40_checksum.md R72, R73). -/

namespace Sys2Proof.Machine

/-! ### The bytes of a CRCDATA packet (30_encoding.md R60) -/

theorem map_dataByte_first_word (w : Word) (ws : List Word) :
    (List.range 4).map (dataByte (w :: ws)) = wordBytes w := rfl

theorem dataByte_cons (w : Word) (ws : List Word) (k : Nat) : dataByte (w :: ws) (4 + k) = dataByte ws k := by
  have hdiv : (4 + k) / 4 = k / 4 + 1 := by omega
  have hmod : (4 + k) % 4 = k % 4 := by omega
  rw [dataByte, hdiv, hmod, List.getD_cons_succ, dataByte]

/-- The words laid out one after another are R60's numbering of their bytes. -/
theorem flatMap_wordBytes (data : List Word) :
    data.flatMap wordBytes = (List.range (4 * data.length)).map (dataByte data) := by
  induction data with
  | nil => rfl
  | cons w ws ih =>
    have htail : dataByte (w :: ws) ∘ (4 + ·) = dataByte ws := funext (dataByte_cons w ws)
    rw [List.flatMap_cons, ih, List.length_cons, Nat.mul_succ, Nat.add_comm, List.range_add, List.map_append,
      map_dataByte_first_word, List.map_map, htail]

/-- With `ceil(N/4)` data words no byte of the `N` is missing. -/
theorem dataBytes_eq_map_dataByte {n : Half} {data : List Word} (h : data.length = dataWords n.toNat) :
    dataBytes n data = (List.range n.toNat).map (dataByte data) := by
  have hle : n.toNat ≤ 4 * data.length := by rw [h, dataWords]; omega
  rw [dataBytes, flatMap_wordBytes, ← List.map_take, List.take_range, Nat.min_eq_left hle]

/-! ### What a CRCDATA packet accumulates (R75) -/

theorem exec_crcdata {n : Half} {data : List Word} (h : data.length = dataWords n.toNat) (s : State) :
    exec (.crcdata n data) s = .next (advance (1 + dataWords n.toNat)
      { s with crcAcc := crcUpdate s.crcAcc ((List.range n.toNat).map (dataByte data)) }) := by
  rw [← dataBytes_eq_map_dataByte h]
  rfl

/-! ### The splitting law (R72) -/

theorem crcUpdate_append (acc : Word) (a b : Bytes) : crcUpdate acc (a ++ b) = crcUpdate (crcUpdate acc a) b :=
  List.foldl_append

/-- Settles O28: an update is a fold over the bytes, and the second packet starts from the accumulator that the first leaves. -/
theorem checksumSplits : Obligations.ChecksumSplits := by
  unfold Obligations.ChecksumSplits
  refine ⟨crcUpdate_append, fun s n m x y hx hy => ⟨_, _, exec_crcdata hx s, exec_crcdata hy _, ?_⟩⟩
  rw [crcUpdate_append, advance_crcAcc, advance_crcAcc]

/-! ### The printed table (R73) -/

/-- Settles O27: both sides are closed lists of 256 words, and the kernel runs the eight rounds of R69 for each. -/
theorem checksumTableIsTheSpecsTable : Obligations.ChecksumTableIsTheSpecsTable := by
  unfold Obligations.ChecksumTableIsTheSpecsTable
  decide +kernel

end Sys2Proof.Machine
end

section
/-! SUPPORT and PROOFS. Fills in one colour, one after another, paint the union of their shapes; the nine shapes of RRECT are
together R88's set; the statement on RRECT (41_raster.md R87, R88). -/

namespace Sys2Proof.Machine

/-! ### Several fills in one colour -/

/-- The fills of the listed shapes in one colour, first one first. -/
def paintAll (shapes : List (Int → Int → Bool)) (c : Rgba) (s : State) : State :=
  shapes.foldl (fun s shape => paint shape c s) s

theorem paintAll_cons (shape : Int → Int → Bool) (shapes : List (Int → Int → Bool)) (c : Rgba) (s : State) :
    paintAll (shape :: shapes) c s = paintAll shapes c (paint shape c s) := rfl

/-- A pixel of the canvas gets the colour where some shape of the list has it. -/
theorem pixelAt_paintAll (shapes : List (Int → Int → Bool)) (c : Rgba) (s : State) {x y : Int}
    (h : onCanvas s.cfg x y = true) :
    pixelAt (paintAll shapes c s) x y = if ∃ shape ∈ shapes, shape x y = true then c else pixelAt s x y := by
  induction shapes generalizing s with
  | nil => simp [paintAll]
  | cons shape shapes ih =>
    rw [paintAll_cons, ih (paint shape c s) h, pixelAt_paint shape c s h]
    simp only [List.exists_mem_cons_iff]
    by_cases hhead : shape x y = true <;> simp [hhead]

theorem canvasByte_paintAll_past (shapes : List (Int → Int → Bool)) (c : Rgba) (s : State) {a : Nat}
    (h : s.cfg.canvasBytes ≤ a) : canvasByte (paintAll shapes c s) a = canvasByte s a := by
  induction shapes generalizing s with
  | nil => rfl
  | cons shape shapes ih => rw [paintAll_cons, ih (paint shape c s) h, canvasByte_paint_past shape c s h]

/-! ### The nine shapes of RRECT (R87) -/

/-- RRECT's centre and its four bands. -/
def roundRectBoxes (x0 y0 w h r : Int) : List (Int → Int → Bool) :=
  [inBox (x0 + r) (y0 + r) (w - 2 * r) (h - 2 * r), inBox (x0 + r) y0 (w - 2 * r) r,
    inBox (x0 + r) (y0 + h - r) (w - 2 * r) r, inBox x0 (y0 + r) r (h - 2 * r), inBox (x0 + w - r) (y0 + r) r (h - 2 * r)]

/-- RRECT's four corner discs. -/
def roundRectDiscs (x0 y0 w h r : Int) : List (Int → Int → Bool) :=
  [inDisc (x0 + r) (y0 + r) r, inDisc (x0 + w - 1 - r) (y0 + r) r, inDisc (x0 + r) (y0 + h - 1 - r) r,
    inDisc (x0 + w - 1 - r) (y0 + h - 1 - r) r]

theorem fillRoundRect_eq_paintAll (x0 y0 w h r : Int) (c : Rgb) (s : State) :
    fillRoundRect x0 y0 w h r c s =
      paintAll (roundRectBoxes x0 y0 w h r ++ roundRectDiscs x0 y0 w h r) (opaqueColour c) s := rfl

theorem inBox_iff (x0 y0 w h x y : Int) :
    inBox x0 y0 w h x y = true ↔ (x0 ≤ x ∧ x < x0 + w) ∧ (y0 ≤ y ∧ y < y0 + h) := by simp [inBox, and_assoc]

theorem inDisc_iff (cx cy r x y : Int) :
    inDisc cx cy r x y = true ↔ (cx - r ≤ x ∧ x ≤ cx + r) ∧ (cy - r ≤ y ∧ y ≤ cy + r) ∧
      (x - cx) * (x - cx) + (y - cy) * (y - cy) ≤ r * r := by simp [inDisc, and_assoc]

/-- A corner centre coordinate of RRECT on one axis: the near or the far one. -/
def IsCentre (v0 len r c : Int) : Prop := c = v0 + r ∨ c = v0 + len - 1 - r

theorem exists_disc_iff (x0 y0 w h r x y : Int) :
    (∃ shape ∈ roundRectDiscs x0 y0 w h r, shape x y = true) ↔
      ∃ cx cy, IsCentre x0 w r cx ∧ IsCentre y0 h r cy ∧ inDisc cx cy r x y = true := by
  simp only [roundRectDiscs, List.exists_mem_cons_iff, List.not_mem_nil, false_and, exists_false, or_false, IsCentre]
  constructor
  · rintro (hd | hd | hd | hd)
    · exact ⟨_, _, .inl rfl, .inl rfl, hd⟩
    · exact ⟨_, _, .inr rfl, .inl rfl, hd⟩
    · exact ⟨_, _, .inl rfl, .inr rfl, hd⟩
    · exact ⟨_, _, .inr rfl, .inr rfl, hd⟩
  · rintro ⟨_, _, rfl | rfl, rfl | rfl, hd⟩ <;> simp [hd]

/-! ### The corner bands of one axis (R88) -/

theorem cornerCentre_eq_none_iff (v0 len r v : Int) :
    cornerCentre v0 len r v = none ↔ v0 + r ≤ v ∧ v < v0 + len - r := by
  unfold cornerCentre
  split_ifs <;> simp <;> omega

/-- A corner band is the near one with the near centre, or the far one with the far centre. -/
theorem cornerCentre_eq_some {v0 len r v c : Int} (h : cornerCentre v0 len r v = some c) :
    (v < v0 + r ∧ c = v0 + r) ∨ (v0 + len - r ≤ v ∧ c = v0 + len - 1 - r) := by
  unfold cornerCentre at h
  split_ifs at h with hnear hfar
  · exact .inl ⟨hnear, (Option.some.inj h).symm⟩
  · exact .inr ⟨hfar, (Option.some.inj h).symm⟩

theorem isCentre_of_cornerCentre {v0 len r v c : Int} (h : cornerCentre v0 len r v = some c) : IsCentre v0 len r c := by
  rcases cornerCentre_eq_some h with ⟨-, hc⟩ | ⟨-, hc⟩
  · exact .inl hc
  · exact .inr hc

/-- The bounding square of a corner's disc reaches over its whole corner band. -/
theorem cornerCentre_reach {v0 len r v c : Int} (h : cornerCentre v0 len r v = some c) (hv : v0 ≤ v ∧ v < v0 + len) :
    c - r ≤ v ∧ v ≤ c + r := by
  rcases cornerCentre_eq_some h with ⟨hband, rfl⟩ | ⟨hband, rfl⟩ <;> omega

/-- On each axis a corner's own centre is at least as close as the other one. -/
theorem cornerCentre_nearest {v0 len r v c d : Int} (hr : 2 * r < len) (h : cornerCentre v0 len r v = some c)
    (hd : IsCentre v0 len r d) : (v - c) * (v - c) ≤ (v - d) * (v - d) := by
  have hclose : (v - c).natAbs ≤ (v - d).natAbs := by
    rcases cornerCentre_eq_some h with ⟨hband, rfl⟩ | ⟨hband, rfl⟩ <;> rcases hd with rfl | rfl <;> omega
  exact Int.natAbs_le_iff_mul_self_le.1 hclose

/-- What the bounding square of a disc holds lies between the ends of the axis. -/
theorem inside_of_centre {v0 len r v d : Int} (hr : 2 * r < len) (hd : IsCentre v0 len r d)
    (hv : d - r ≤ v ∧ v ≤ d + r) : v0 ≤ v ∧ v < v0 + len := by
  rcases hd with rfl | rfl <;> omega

/-! ### The rounded rectangle as a union (R88) -/

theorem inRoundRect_iff (x0 y0 w h r x y : Int) :
    inRoundRect x0 y0 w h r x y = true ↔ inBox x0 y0 w h x y = true ∧
      ∀ cx cy, cornerCentre x0 w r x = some cx → cornerCentre y0 h r y = some cy →
        (x - cx) * (x - cx) + (y - cy) * (y - cy) ≤ r * r := by
  rw [inRoundRect, Bool.and_eq_true]
  cases cornerCentre x0 w r x <;> cases cornerCentre y0 h r y <;> simp

section Admitted

variable {w h r : Int} (hr : 0 ≤ r) (hw : 2 * r < w) (hh : 2 * r < h)
include hr hw hh

/-- The five rectangles are the box without its four corner squares. -/
theorem exists_box_iff (x0 y0 x y : Int) :
    (∃ shape ∈ roundRectBoxes x0 y0 w h r, shape x y = true) ↔
      inBox x0 y0 w h x y = true ∧ (cornerCentre x0 w r x = none ∨ cornerCentre y0 h r y = none) := by
  simp only [roundRectBoxes, List.exists_mem_cons_iff, List.not_mem_nil, false_and, exists_false, or_false, inBox_iff,
    cornerCentre_eq_none_iff]
  omega

omit hr in
/-- A disc lies in the box, and what it has of a corner square is in that corner's own disc. -/
theorem inRoundRect_of_disc {x0 y0 x y cx cy : Int} (hcx : IsCentre x0 w r cx) (hcy : IsCentre y0 h r cy)
    (hdisc : inDisc cx cy r x y = true) : inRoundRect x0 y0 w h r x y = true := by
  obtain ⟨hx, hy, hdist⟩ := (inDisc_iff ..).1 hdisc
  rw [inRoundRect_iff, inBox_iff]
  refine ⟨⟨inside_of_centre hw hcx hx, inside_of_centre hh hcy hy⟩, fun ox oy hox hoy => ?_⟩
  calc (x - ox) * (x - ox) + (y - oy) * (y - oy)
      ≤ (x - cx) * (x - cx) + (y - cy) * (y - cy) :=
        add_le_add (cornerCentre_nearest hw hox hcx) (cornerCentre_nearest hh hoy hcy)
    _ ≤ r * r := hdist

/-- R88: the five rectangles and four discs together are the rounded rectangle. -/
theorem exists_roundRect_shape_iff (x0 y0 x y : Int) :
    (∃ shape ∈ roundRectBoxes x0 y0 w h r ++ roundRectDiscs x0 y0 w h r, shape x y = true) ↔
      inRoundRect x0 y0 w h r x y = true := by
  simp only [List.mem_append, or_and_right, exists_or, exists_box_iff hr hw hh, exists_disc_iff]
  constructor
  · rintro (⟨hbox, hnone⟩ | ⟨cx, cy, hcx, hcy, hdisc⟩)
    · refine (inRoundRect_iff ..).2 ⟨hbox, fun cx cy hcx hcy => ?_⟩
      simp [hcx, hcy] at hnone
    · exact inRoundRect_of_disc hw hh hcx hcy hdisc
  · intro hround
    obtain ⟨hbox, hdist⟩ := (inRoundRect_iff ..).1 hround
    obtain ⟨hx, hy⟩ := (inBox_iff ..).1 hbox
    cases hcx : cornerCentre x0 w r x with
    | none => exact .inl ⟨hbox, .inl rfl⟩
    | some cx =>
      cases hcy : cornerCentre y0 h r y with
      | none => exact .inl ⟨hbox, .inr rfl⟩
      | some cy =>
        refine .inr ⟨cx, cy, isCentre_of_cornerCentre hcx, isCentre_of_cornerCentre hcy, (inDisc_iff ..).2 ?_⟩
        exact ⟨cornerCentre_reach hcx hx, cornerCentre_reach hcy hy, hdist cx cy hcx hcy⟩

theorem pixelAt_fillRoundRect (x0 y0 : Int) (c : Rgb) (s : State) {x y : Int} (hon : onCanvas s.cfg x y = true) :
    pixelAt (fillRoundRect x0 y0 w h r c s) x y =
      if inRoundRect x0 y0 w h r x y then opaqueColour c else pixelAt s x y := by
  rw [fillRoundRect_eq_paintAll, pixelAt_paintAll _ _ _ hon]
  simp only [exists_roundRect_shape_iff hr hw hh]

end Admitted

/-! ### RRECT -/

theorem exec_rrect_of_ok {w h r : Half} (hok : roundRectOk (sint16 w) (sint16 h) (sint16 r) = true) (p : Pal)
    (x0 y0 : Half) (s : State) : exec (.rrect p x0 y0 w h r) s = .next (advance 4
      (fillRoundRect (sint16 x0) (sint16 y0) (sint16 w) (sint16 h) (sint16 r) (palColour s p) s)) := by
  rw [exec, execRrect, if_pos hok]

@[simp] theorem pixelAt_advance (n : Nat) (s : State) (x y : Int) : pixelAt (advance n s) x y = pixelAt s x y := rfl

/-- Settles O20: the nine fills paint the union of their shapes, and that union is R88's set. -/
theorem rrectPaintsTheRoundedBox : Obligations.RrectPaintsTheRoundedBox := by
  unfold Obligations.RrectPaintsTheRoundedBox
  intro p x0 y0 w h r s hr hw hh
  have hok : roundRectOk (sint16 w) (sint16 h) (sint16 r) = true := by simp [roundRectOk, hr, hw, hh]
  refine ⟨_, exec_rrect_of_ok hok p x0 y0 s, fun x y hon => ?_, fun a ha => ?_, ?_⟩
  · rw [pixelAt_advance, pixelAt_fillRoundRect hr hw hh _ _ _ _ hon, opaqueColour]
  · rw [canvasByte_advance, fillRoundRect_eq_paintAll, canvasByte_paintAll_past _ _ _ ha]
  · ext1 <;> simp

end Sys2Proof.Machine
end

section
/-! SUPPORT and PROOFS. The scanline stream row by row, the lengths of the framer's parts, what a failed ENCODE does, and the
statements on them (42_encoder.md R92, R97, R99). -/

namespace Sys2Proof.Machine

/-! ### The scanline filter (R92) -/

/-- One filter byte goes in front of each of the `n` rows. -/
theorem length_filterRows (k n : Nat) {s : Bytes} (h : s.length = n * k) : (filterRows k n s).length = n * (1 + k) := by
  induction n generalizing s with
  | zero => simp [filterRows]
  | succ n ih =>
    rw [Nat.succ_mul] at h
    have hrest : (s.drop k).length = n * k := by rw [List.length_drop]; omega
    rw [filterRows, List.length_cons, List.length_append, List.length_take, ih hrest, Nat.succ_mul]
    omega

/-- A whole first row is taken off, filtered, and the filter goes on with what follows it. -/
theorem filterRows_append {k : Nat} {row : Bytes} (h : row.length = k) (n : Nat) (rest : Bytes) :
    filterRows k (n + 1) (row ++ rest) = 0 :: (row ++ filterRows k n rest) := by
  rw [filterRows, List.take_left' h, List.drop_left' h]

/-- Of bytes given by position, row `y` is those at `y * k` and after. -/
theorem filterRows_map_range (k n : Nat) (f : Nat → Byte) :
    filterRows k n ((List.range (n * k)).map f) =
      (List.range n).flatMap (fun y => 0 :: (List.range k).map (fun j => f (y * k + j))) := by
  induction n generalizing f with
  | zero => rfl
  | succ n ih =>
    have hbytes : (List.range ((n + 1) * k)).map f =
        (List.range k).map f ++ (List.range (n * k)).map (fun j => f (k + j)) := by
      rw [Nat.succ_mul, Nat.add_comm, List.range_add, List.map_append, List.map_map]
      rfl
    have hshift : ∀ y j, k + (y * k + j) = (y + 1) * k + j := by intro y j; rw [Nat.succ_mul]; omega
    rw [hbytes, filterRows_append (by simp), ih, List.range_succ_eq_map, List.flatMap_cons, List.flatMap_map]
    simp only [hshift, Nat.zero_mul, Nat.zero_add, Nat.succ_eq_add_one, List.cons_append]

/-! ### The scanline stream -/

theorem canvas_wf_of_memoryOk {s : State} (h : s.memoryOk = true) :
    Memory.wf (some 0) s.cfg.canvasBytes s.canvas = true := by
  simp only [State.memoryOk, Bool.and_eq_true] at h
  obtain ⟨⟨⟨⟨hcanvas, -⟩, -⟩, -⟩, -⟩ := h
  exact hcanvas

/-- The one pass over the canvas reads its bytes in order. -/
theorem span_canvas {s : State} (h : s.memoryOk = true) : Memory.span 0 0 s.cfg.canvasBytes s.canvas = canvasList s := by
  obtain ⟨hrising, -⟩ := (Memory.wf_iff ..).1 (canvas_wf_of_memoryOk h)
  rw [Memory.span_eq 0 0 _ hrising, canvasList]
  simp only [Nat.zero_add]
  rfl

theorem canvasBytes_eq_rows (c : Config) : c.canvasBytes = c.height * (c.width * 4) := by
  rw [Config.canvasBytes, Config.pixels, Nat.mul_comm c.width, Nat.mul_assoc]

theorem length_scanStream (s : State) : (scanStream s).length = s.cfg.height * (1 + 4 * s.cfg.width) := by
  rw [scanStream, length_filterRows _ _ (by rw [Memory.length_span, canvasBytes_eq_rows]), Nat.mul_comm s.cfg.width]

/-- Settles O32: the span over a canonical canvas is its bytes by address, which the filter cuts into rows. -/
theorem scanStreamIsTheFilteredRows : Obligations.ScanStreamIsTheFilteredRows := by
  unfold Obligations.ScanStreamIsTheFilteredRows
  intro s hmem
  refine ⟨?_, length_scanStream s⟩
  rw [scanStream, span_canvas hmem, canvasList, canvasBytes_eq_rows, filterRows_map_range]
  simp only [Nat.mul_assoc]

/-! ### A failed ENCODE (R99) -/

theorem headerF0_encode : headerF0 .encode = 0x00000030 := rfl

theorem exec_encode_of_compressFail {s : State} (hz : zcompress s.cfg.compressor (scanStream s) = none) :
    exec .encode s = .next (raiseFault .compressFail 0x00000030 (voidOut s)) := by
  simp only [exec, execEncode, hz, headerF0_encode]

theorem exec_encode_of_outOverflow {s : State} {z : Bytes} (hz : zcompress s.cfg.compressor (scanStream s) = some z)
    (hlong : s.cfg.outCap < (pngFile s.cfg z).length) :
    exec .encode s = .next (raiseFault .outOverflow 0x00000030 (voidOut s)) := by
  simp only [exec, execEncode, hz, if_pos hlong, headerF0_encode]

/-- Both failures raise their fault over a void OUT. -/
theorem exec_encode_of_failure {s : State} {code : FaultCode}
    (h : (zcompress s.cfg.compressor (scanStream s) = none ∧ code = .compressFail) ∨
      (∃ z, zcompress s.cfg.compressor (scanStream s) = some z ∧ s.cfg.outCap < (pngFile s.cfg z).length ∧
        code = .outOverflow)) :
    exec .encode s = .next (raiseFault code 0x00000030 (voidOut s)) := by
  rcases h with ⟨hz, rfl⟩ | ⟨z, hz, hlong, rfl⟩
  · exact exec_encode_of_compressFail hz
  · exact exec_encode_of_outOverflow hz hlong

/-- Settles O25: a failure raises its fault over a void OUT, of which no byte is valid. -/
theorem failedEncodeLeavesNoOutput : Obligations.FailedEncodeLeavesNoOutput := by
  unfold Obligations.FailedEncodeLeavesNoOutput
  intro s code hfail
  refine ⟨_, exec_encode_of_failure hfail, fun d a => outByte_of_outLen_zero rfl d a, ?_⟩
  ext1 <;> simp

/-! ### The file (R96, R97) -/

@[simp] theorem length_be32 (v : Word) : (be32 v).length = 4 := rfl

@[simp] theorem length_ihdrPayload (c : Config) : (ihdrPayload c).length = 13 := rfl

/-- A chunk is its payload and twelve bytes: length, identifier and checksum. -/
theorem length_chunk {t : Bytes} (ht : t.length = 4) (d : Bytes) : (chunk t d).length = 12 + d.length := by
  simp only [chunk, List.length_append, length_be32, ht]
  omega

theorem length_pngFile (c : Config) (z : Bytes) : (pngFile c z).length = 57 + z.length := by
  have hsig : fileSignature.length = 8 := rfl
  have hihdr : (chunk idIHDR (ihdrPayload c)).length = 25 := length_chunk rfl _
  have hidat : (chunk idIDAT z).length = 12 + z.length := length_chunk rfl z
  have hiend : (chunk idIEND []).length = 12 := length_chunk rfl []
  simp only [pngFile, List.length_append, hsig, hihdr, hidat, hiend]
  omega

/-- Settles O36: the layout is the definition's, and the two printed chunks are closed lists whose checksums the kernel
computes. -/
theorem fileIsSignatureAndThreeChunks : Obligations.FileIsSignatureAndThreeChunks := by
  unfold Obligations.FileIsSignatureAndThreeChunks
  exact ⟨fun c z => ⟨rfl, length_pngFile c z⟩, by decide +kernel, by decide +kernel⟩

end Sys2Proof.Machine
end

section
/-! SUPPORT and PROOFS. The packet step against R109's `CheckPacket`, test by test, which packets can still fault, and the
statements on them (60_exceptions.md R109, R110). -/

namespace Sys2Proof

/-! ### The packet that a checked header builds -/

/-- A header that meets its mnemonic's mask and match is the header of the packet built from it. -/
theorem header_buildPacket {hdr : Word} {op : Op} (ops : List Word) (hop : opField hdr = op.code)
    (hmask : hdr &&& op.headerMask = op.headerMatch) : (buildPacket op hdr ops).header = hdr := by
  cases op
  case setpal | rect | circle | rrect => exact (headerFP_of_mask rfl hmask hop).symm
  case crcdata => exact (headerFN_of_mask rfl hmask hop).symm
  all_goals exact (headerF0_of_mask rfl hmask).symm

/-- Only an RRECT header builds an RRECT. -/
theorem buildPacket_eq_rrect {op : Op} {hdr : Word} {ops : List Word} {p : Pal} {x0 y0 w h r : Half}
    (heq : buildPacket op hdr ops = .rrect p x0 y0 w h r) :
    op = .rrect ∧ w = lowHalf (operand ops 1) ∧ h = highHalf (operand ops 1) ∧ r = lowHalf (operand ops 2) := by
  cases op <;> cases heq
  exact ⟨rfl, rfl, rfl, rfl⟩

/-! ### The refusals of `decode` that do not look at operands -/

theorem decode_illegalOpcode {hdr : Word} (ops : List Word) (hop : opOf? (opField hdr) = none) :
    decode (hdr :: ops) = .error (.illegalOpcode hdr) := by
  rw [decode_cons, hop]

theorem decode_truncated {hdr : Word} {op : Op} {ops : List Word} (hop : opField hdr = op.code)
    (hmask : hdr &&& op.headerMask = op.headerMatch) (hlen : ops.length + 1 < op.length hdr) :
    decode (hdr :: ops) = .error (.truncated hdr) := by
  rw [decode_cons, hop, opOf?_code]
  simp [hmask, hlen]

theorem operandReservedOk_eq_true {op : Op} {ops : List Word}
    (hpal : op = .setpal → (operand ops 0).extractLsb' 24 8 = 0)
    (hcircle : op = .circle → (operand ops 1).extractLsb' 16 16 = 0)
    (hrrect : op = .rrect → (operand ops 2).extractLsb' 16 16 = 0) : operandReservedOk op ops = true := by
  cases op
  case setpal => exact beq_iff_eq.2 (hpal rfl)
  case circle => exact beq_iff_eq.2 (hcircle rfl)
  case rrect => exact beq_iff_eq.2 (hrrect rfl)
  all_goals rfl

end Sys2Proof

namespace Sys2Proof.Machine

/-! ### The operand tests of `CheckPacket` -/

/-- The packet of mnemonic `op` at `pc` has a reserved operand bit that is 1 (R64). -/
def ReservedOperandBit (s : State) (pc : Nat) (op : Op) : Prop :=
  (op = .setpal ∧ (cmdWord s (pc + 1)).extractLsb' 24 8 ≠ 0) ∨
    (op = .circle ∧ (cmdWord s (pc + 2)).extractLsb' 16 16 ≠ 0) ∨
    (op = .rrect ∧ (cmdWord s (pc + 3)).extractLsb' 16 16 ≠ 0)

/-- The sizes and the radius in CMD of an RRECT at `pc` are in the range of R87. -/
def rrectWordsOk (s : State) (pc : Nat) : Bool :=
  roundRectOk (sint16 (lowHalf (cmdWord s (pc + 2)))) (sint16 (highHalf (cmdWord s (pc + 2))))
    (sint16 (lowHalf (cmdWord s (pc + 3))))

theorem checkOperands_eq_some {s : State} {pc : Nat} {op : Op} {code : FaultCode}
    (h : checkOperands s pc op = some code) :
    (code = .reservedField ∧ ReservedOperandBit s pc op) ∨
      (code = .operandRange ∧ op = .rrect ∧ ¬ ReservedOperandBit s pc op ∧ rrectWordsOk s pc = false) := by
  unfold checkOperands at h
  split_ifs at h with hpal hcircle hrrect hrange <;> cases h
  · exact .inl ⟨rfl, .inl (by simpa using hpal)⟩
  · exact .inl ⟨rfl, .inr (.inl (by simpa using hcircle))⟩
  · exact .inl ⟨rfl, .inr (.inr (by simpa using hrrect))⟩
  · obtain ⟨rfl, hbad⟩ : op = .rrect ∧ rrectWordsOk s pc = false := by simpa [rrectWordsOk] using hrange
    exact .inr ⟨rfl, rfl, by simpa [ReservedOperandBit] using hrrect, hbad⟩

theorem checkOperands_eq_none {s : State} {pc : Nat} {op : Op} (h : checkOperands s pc op = none) :
    ¬ ReservedOperandBit s pc op ∧ (op = .rrect → rrectWordsOk s pc = true) := by
  unfold checkOperands at h
  split_ifs at h with hpal hcircle hrrect hrange
  refine ⟨?_, ?_⟩
  · rintro (hbit | hbit | hbit)
    · exact hpal (by simpa using hbit)
    · exact hcircle (by simpa using hbit)
    · exact hrrect (by simpa using hbit)
  · rintro rfl
    simpa [rrectWordsOk] using hrange

/-! ### The fetched packet under the tests -/

/-- Operand word `k` of a packet that fits is the word of CMD `1 + k` past its header. -/
theorem operand_of_fits {s : State} {pc n k : Nat} (hfit : pc + n ≤ s.cfg.cmdWords) (hk : k + 1 < n) :
    operand (cmdWordsFrom s (pc + 1) (n - 1)) k = cmdWord s (pc + (1 + k)) := by
  rw [operand_cmdWordsFrom (by omega) (by omega), Nat.add_assoc]

theorem operandReservedOk_fetched_eq_true {s : State} {pc : Nat} {op : Op} {hdr : Word}
    (hfit : pc + op.length hdr ≤ s.cfg.cmdWords) (h : ¬ ReservedOperandBit s pc op) :
    operandReservedOk op (cmdWordsFrom s (pc + 1) (op.length hdr - 1)) = true := by
  simp only [ReservedOperandBit, not_or, not_and, ne_eq, not_not] at h
  obtain ⟨hpal, hcircle, hrrect⟩ := h
  apply operandReservedOk_eq_true <;> rintro rfl <;> rw [operand_of_fits hfit (by simp [Op.length])]
  · exact hpal rfl
  · exact hcircle rfl
  · exact hrrect rfl

section Header

variable {s : State} {op : Op} (hlt : s.pc.toNat < s.cfg.cmdWords) (hop : opField (cmdWord s s.pc.toNat) = op.code)
  (hmask : cmdWord s s.pc.toNat &&& op.headerMask = op.headerMatch)
include hlt hop hmask

theorem decode_fetchPacket_truncated (hlong : s.cfg.cmdWords < s.pc.toNat + op.length (cmdWord s s.pc.toNat)) :
    decode (fetchPacket s) = .error (.truncated (cmdWord s s.pc.toNat)) := by
  rw [fetchPacket_of_opField hlt hop]
  exact decode_truncated hop hmask (by rw [length_cmdWordsFrom]; omega)

/-- A packet that passes every test but R87's range decodes to the packet that its words in CMD build. -/
theorem decode_fetchPacket_accepts (hfit : s.pc.toNat + op.length (cmdWord s s.pc.toNat) ≤ s.cfg.cmdWords)
    (hres : ¬ ReservedOperandBit s s.pc.toNat op) :
    ∃ rest, decode (fetchPacket s) = .ok (buildPacket op (cmdWord s s.pc.toNat)
      (cmdWordsFrom s (s.pc.toNat + 1) (op.length (cmdWord s s.pc.toNat) - 1)), rest) := by
  rw [fetchPacket_of_opField hlt hop]
  exact ⟨_, decode_accepts hop hmask (length_operands_of_fits hfit) (operandReservedOk_fetched_eq_true hfit hres)⟩

end Header

/-- The range test of a fetched RRECT is the one on CMD. -/
theorem roundRectOk_of_buildPacket_eq_rrect {s : State} {pc : Nat} {op : Op} {hdr : Word} {p : Pal}
    {x0 y0 w h r : Half} (hfit : pc + op.length hdr ≤ s.cfg.cmdWords)
    (heq : buildPacket op hdr (cmdWordsFrom s (pc + 1) (op.length hdr - 1)) = .rrect p x0 y0 w h r) :
    roundRectOk (sint16 w) (sint16 h) (sint16 r) = rrectWordsOk s pc := by
  obtain ⟨rfl, rfl, rfl, rfl⟩ := buildPacket_eq_rrect heq
  rw [operand_of_fits hfit (by simp [Op.length]), operand_of_fits hfit (by simp [Op.length])]
  rfl

/-! ### Which packets fault -/

theorem exec_rrect_of_not_ok {w h r : Half} (hbad : roundRectOk (sint16 w) (sint16 h) (sint16 r) = false) (p : Pal)
    (x0 y0 : Half) (s : State) :
    exec (.rrect p x0 y0 w h r) s = .next (raiseFault .operandRange (headerFP .rrect p) s) := by
  rw [exec, execRrect, hbad]
  rfl

/-- What a packet makes of FAULT: an RRECT out of range and a failed ENCODE raise it, nothing else touches it. -/
theorem exec_fault_cases {i : Instr} {s t : State} (h : exec i s = .next t) :
    t.status.fault = s.status.fault ∨
    (∃ p x0 y0 w h r, i = .rrect p x0 y0 w h r ∧ roundRectOk (sint16 w) (sint16 h) (sint16 r) = false ∧
      t = raiseFault .operandRange i.header s) ∨
    (i = .encode ∧ ∃ code, (code = .compressFail ∨ code = .outOverflow) ∧
      t = raiseFault code 0x00000030 (voidOut s)) := by
  cases i
  case rrect p x0 y0 w h' r =>
    cases hok : roundRectOk (sint16 w) (sint16 h') (sint16 r) with
    | true =>
      rw [exec_rrect_of_ok hok] at h
      cases h
      exact .inl (by simp)
    | false =>
      rw [exec_rrect_of_not_ok hok] at h
      cases h
      exact .inr (.inl ⟨p, x0, y0, w, h', r, rfl, hok, rfl⟩)
  case encode =>
    cases hz : zcompress s.cfg.compressor (scanStream s) with
    | none =>
      rw [exec_encode_of_compressFail hz] at h
      cases h
      exact .inr (.inr ⟨rfl, _, .inl rfl, rfl⟩)
    | some z =>
      by_cases hlong : s.cfg.outCap < (pngFile s.cfg z).length
      · rw [exec_encode_of_outOverflow hz hlong] at h
        cases h
        exact .inr (.inr ⟨rfl, _, .inr rfl, rfl⟩)
      · simp only [exec, execEncode, hz, if_neg hlong] at h
        cases h
        exact .inl (by simp)
  all_goals
    cases h
    exact .inl (by simp)

/-! ### `CheckPacket` and the step (R109) -/

theorem step_of_reservedBit {s : State} {op : Op} (hrun : s.runsPacket = true) (hlt : s.pc.toNat < s.cfg.cmdWords)
    (hop : opField (cmdWord s s.pc.toNat) = op.code)
    (hbit : cmdWord s s.pc.toNat &&& op.headerMask ≠ op.headerMatch ∨
      (s.pc.toNat + op.length (cmdWord s s.pc.toNat) ≤ s.cfg.cmdWords ∧ ReservedOperandBit s s.pc.toNat op)) :
    step s = .next (raiseFault .reservedField (cmdWord s s.pc.toNat) s) :=
  (reservedBitFaults s op hrun hlt hop).1 hbit

/-- An RRECT out of range passes the decoder; its fault is the packet's own, and names the same header. -/
theorem step_of_rrect_out_of_range {s : State} (hrun : s.runsPacket = true) (hlt : s.pc.toNat < s.cfg.cmdWords)
    (hop : opField (cmdWord s s.pc.toNat) = Op.rrect.code)
    (hmask : cmdWord s s.pc.toNat &&& Op.rrect.headerMask = Op.rrect.headerMatch)
    (hfit : s.pc.toNat + Op.rrect.length (cmdWord s s.pc.toNat) ≤ s.cfg.cmdWords)
    (hres : ¬ ReservedOperandBit s s.pc.toNat .rrect) (hbad : rrectWordsOk s s.pc.toNat = false) :
    step s = .next (raiseFault .operandRange (cmdWord s s.pc.toNat) s) := by
  obtain ⟨rest, hdec⟩ := decode_fetchPacket_accepts hlt hop hmask hfit hres
  rw [step_of_decode_ok hrun hdec, buildPacket,
    exec_rrect_of_not_ok ((roundRectOk_of_buildPacket_eq_rrect hfit rfl).trans hbad), ← headerFP_of_mask rfl hmask hop]

theorem step_of_checkPacket_some {s : State} {code : FaultCode} {info : Word} (hrun : s.runsPacket = true)
    (hcheck : checkPacket s s.pc.toNat = some (code, info)) : step s = .next (raiseFault code info s) := by
  unfold checkPacket at hcheck
  split at hcheck
  next hpast =>
    cases hcheck
    have hdec : decode (fetchPacket s) = .error .noHeader := by rw [fetchPacket_eq, if_neg (Nat.not_lt.2 hpast)]; rfl
    exact step_of_decode_error hrun hdec
  next hlt =>
    rw [Nat.not_le] at hlt
    split at hcheck
    next hop =>
      cases hcheck
      have hdec : decode (fetchPacket s) = .error (.illegalOpcode (cmdWord s s.pc.toNat)) := by
        rw [fetchPacket_eq, if_pos hlt, decode_illegalOpcode _ hop]
      exact step_of_decode_error hrun hdec
    next op hop =>
      have hcode := (opOf?_eq_some.1 hop).symm
      split_ifs at hcheck with hmask hlong
      · cases hcheck
        exact step_of_reservedBit hrun hlt hcode (.inl hmask)
      · cases hcheck
        exact step_of_decode_error hrun (decode_fetchPacket_truncated hlt hcode (not_not.1 hmask) hlong)
      · obtain ⟨c, hops, hc⟩ := Option.map_eq_some_iff.1 hcheck
        cases hc
        have hfit := Nat.not_lt.1 hlong
        rcases checkOperands_eq_some hops with ⟨rfl, hbit⟩ | ⟨rfl, rfl, hres, hbad⟩
        · exact step_of_reservedBit hrun hlt hcode (.inr ⟨hfit, hbit⟩)
        · exact step_of_rrect_out_of_range hrun hlt hcode (not_not.1 hmask) hfit hres hbad

/-- What every test of R109 answers for a packet that passes them all. -/
theorem checkPacket_eq_none {s : State} {pc : Nat} (h : checkPacket s pc = none) :
    pc < s.cfg.cmdWords ∧ ∃ op : Op, opField (cmdWord s pc) = op.code ∧
      cmdWord s pc &&& op.headerMask = op.headerMatch ∧ pc + op.length (cmdWord s pc) ≤ s.cfg.cmdWords ∧
      checkOperands s pc op = none := by
  unfold checkPacket at h
  split at h
  next => cases h
  next hlt =>
    split at h
    next => cases h
    next op hop =>
      split_ifs at h with hmask hlong
      exact ⟨Nat.not_le.1 hlt, op, (opOf?_eq_some.1 hop).symm, not_not.1 hmask, Nat.not_lt.1 hlong,
        Option.map_eq_none_iff.1 h⟩

theorem step_of_checkPacket_none {s : State} (hrun : s.runsPacket = true)
    (hcheck : checkPacket s s.pc.toNat = none) :
    ∃ (i : Instr) (rest : List Word), decode (fetchPacket s) = .ok (i, rest) ∧ i.header = cmdWord s s.pc.toNat ∧
      step s = exec i s ∧
      (∀ t, step s = .next t → s.status.fault = false → t.status.fault = true → i = .encode) := by
  obtain ⟨hlt, op, hop, hmask, hfit, hops⟩ := checkPacket_eq_none hcheck
  obtain ⟨hres, hrange⟩ := checkOperands_eq_none hops
  obtain ⟨rest, hdec⟩ := decode_fetchPacket_accepts hlt hop hmask hfit hres
  have hstep := step_of_decode_ok hrun hdec
  refine ⟨_, rest, hdec, header_buildPacket _ hop hmask, hstep, fun t ht hs hfault => ?_⟩
  rw [hstep] at ht
  rcases exec_fault_cases ht with hkept | ⟨p, x0, y0, w, h, r, hi, hbad, -⟩ | ⟨hencode, -⟩
  · rw [hkept, hs] at hfault
    cases hfault
  · obtain ⟨hrrect, -⟩ := buildPacket_eq_rrect hi
    rw [roundRectOk_of_buildPacket_eq_rrect hfit hi, hrange hrrect] at hbad
    cases hbad
  · exact hencode

/-- Settles O7: each failing test is a refusal of the decoder, but for RRECT's range, which the packet tests itself; past all
tests only ENCODE is left of the packets that can fault. -/
theorem stepIsCheckPacketThenThePacket : Obligations.StepIsCheckPacketThenThePacket := by
  unfold Obligations.StepIsCheckPacketThenThePacket
  intro s hrun
  cases hcheck : checkPacket s s.pc.toNat with
  | none => exact step_of_checkPacket_none hrun hcheck
  | some p => exact step_of_checkPacket_some hrun hcheck

/-! ### Precise faults (R110) -/

/-- A packet step that faults has done nothing but raise the fault, or has voided OUT before. -/
theorem step_fault_cases {s t : State} (hrun : s.runsPacket = true) (hs : s.status.fault = false)
    (hstep : step s = .next t) (ht : t.status.fault = true) :
    (∃ code info, code ≠ .none ∧ t = raiseFault code info s) ∨
      ∃ code, (code = .compressFail ∨ code = .outOverflow) ∧ t = raiseFault code 0x00000030 (voidOut s) := by
  cases hdec : decode (fetchPacket s) with
  | error r =>
    rw [step_of_decode_error hrun hdec] at hstep
    cases hstep
    exact .inl (raiseReject_eq r s)
  | ok p =>
    rw [step_of_decode_ok hrun hdec] at hstep
    rcases exec_fault_cases hstep with hkept | ⟨_, _, _, _, _, _, -, -, hrrect⟩ | ⟨-, hencode⟩
    · rw [hkept, hs] at ht
      cases ht
    · exact .inl ⟨_, _, by decide, hrrect⟩
    · exact .inr hencode

/-- Settles O59: raising a fault writes STATUS and FAULT_INFO only, over the state as it was or, after an ENCODE, over the one
with a void OUT. -/
theorem faultsArePrecise : Obligations.FaultsArePrecise := by
  unfold Obligations.FaultsArePrecise
  intro s t hrun hs hstep ht
  rcases step_fault_cases hrun hs hstep ht with ⟨code, info, hcode, rfl⟩ | ⟨code, hcode, rfl⟩
  · exact ⟨rfl, rfl, rfl, hcode, .inl rfl⟩
  · have hne : code ≠ .none := by rcases hcode with rfl | rfl <;> decide
    exact ⟨rfl, rfl, rfl, hne, .inr ⟨hcode, rfl, rfl⟩⟩

end Sys2Proof.Machine
end

section
/-! SUPPORT and PROOFS. What `decode` and `encode` make of each other's answers, the header masks, and the statements on
encoding (30_encoding.md R57 to R62, R64). -/

namespace Sys2Proof

/-! ### Decoding an encoded packet -/

/-- From a packet's own header and operand words the packet is built again, whatever words follow. -/
theorem buildPacket_header_operands {i : Instr} (h : i.wellFormed = true) (rest : List Word) :
    buildPacket i.op i.header (i.operands ++ rest) = i := by
  cases i
  case crcdata n data =>
    have hlen : data.length = dataWords n.toNat := by simpa [Instr.wellFormed] using h
    simp [buildPacket, Instr.op, Instr.header, Instr.operands, ← hlen]
  all_goals simp [buildPacket, Instr.op, Instr.header, Instr.operands, operand]

/-- The operand words of a packet have their reserved bits 0. -/
theorem operandReservedOk_operands (i : Instr) (rest : List Word) :
    operandReservedOk i.op (i.operands ++ rest) = true := by
  cases i
  case setpal p c => exact rgbReservedOk_toWord c
  case circle p cx cy r => exact radReservedOk_radWord r
  case rrect p x0 y0 w h r => exact radReservedOk_radWord r
  all_goals rfl

theorem length_operands {i : Instr} (h : i.wellFormed = true) : i.operands.length + 1 = i.op.length i.header := by
  rw [← length_encode h, encode, List.length_cons]

/-- Settles O1: the words of a packet pass every test of the decoder, which then builds the packet from them. -/
theorem decodeOfEncodeIsThePacket : Obligations.DecodeOfEncodeIsThePacket := by
  unfold Obligations.DecodeOfEncodeIsThePacket
  intro i rest hwf
  have hlen := length_operands hwf
  have hdec := decode_accepts (ops := i.operands ++ rest) (opField_header i) (header_mask i)
    (by rw [List.length_append]; omega) (operandReservedOk_operands i rest)
  rw [buildPacket_header_operands hwf, List.drop_left' (by omega)] at hdec
  exact hdec

/-! ### Encoding a decoded packet -/

/-- With all its operand words there, what is built is well formed. -/
theorem wellFormed_buildPacket {op : Op} {hdr : Word} {ops : List Word} (hlen : op.length hdr ≤ ops.length + 1) :
    (buildPacket op hdr ops).wellFormed = true := by
  cases op
  case crcdata =>
    have hle : dataWords (highHalf hdr).toNat ≤ ops.length := by rw [Op.length] at hlen; omega
    simpa [buildPacket, Instr.wellFormed] using hle
  all_goals rfl

theorem take_eq_map_operand {ops : List Word} {n : Nat} (h : n ≤ ops.length) :
    ops.take n = (List.range n).map (operand ops) := by
  apply List.ext_getElem
  · simpa using h
  · intro k hk _
    have hlt : k < ops.length := by rw [List.length_take] at hk; omega
    simp [operand, hlt]

/-- The operand words of the built packet are those it was built from: no bit of them is lost where the reserved ones are 0. -/
theorem operands_buildPacket {op : Op} {hdr : Word} {ops : List Word} (hlen : op.length hdr ≤ ops.length + 1)
    (hres : operandReservedOk op ops = true) :
    (buildPacket op hdr ops).operands = ops.take (op.length hdr - 1) := by
  rw [take_eq_map_operand (by omega)]
  cases op
  case crcdata =>
    rw [← take_eq_map_operand (by omega)]
    simp [buildPacket, Instr.operands, Op.length]
  case setpal => simp [buildPacket, Instr.operands, Op.length, Rgb.toWord_ofWord hres]
  case circle => simp [buildPacket, Instr.operands, Op.length, List.range_succ, radWord_lowHalf hres]
  case rrect => simp [buildPacket, Instr.operands, Op.length, List.range_succ, radWord_lowHalf hres]
  all_goals simp [buildPacket, Instr.operands, Op.length, List.range_succ]

/-- Settles O2: header and operand words of the built packet are those that were read. -/
theorem decodedWordsAreThePacketsEncoding : Obligations.DecodedWordsAreThePacketsEncoding := by
  unfold Obligations.DecodedWordsAreThePacketsEncoding
  intro ws i rest hdec
  obtain ⟨hdr, ops, op, rfl, hop, hmask, hlen, hres, rfl, rfl⟩ := decode_eq_ok hdec
  refine ⟨wellFormed_buildPacket hlen, ?_⟩
  rw [encode, header_buildPacket ops hop hmask, operands_buildPacket hlen hres, List.cons_append, List.take_append_drop]

/-! ### The words of each form -/

/-- Settles O3: each list is closed, and the decoder runs on it. -/
theorem decodeReadsTheWordsOfEachForm : Obligations.DecodeReadsTheWordsOfEachForm := by
  unfold Obligations.DecodeReadsTheWordsOfEachForm
  exact ⟨rfl, rfl, rfl, rfl, rfl, rfl, rfl, rfl, rfl, rfl, rfl⟩

/-! ### The header masks -/

theorem code_injective : Function.Injective Op.code := by
  intro a b h
  exact Option.some.inj (by rw [← opOf?_code a, ← opOf?_code b, h])

/-- Every mask of R61 covers the OP byte, and every match has the mnemonic's there. -/
theorem opField_of_mask {hdr : Word} {op : Op} (h : hdr &&& op.headerMask = op.headerMatch) : opField hdr = op.code := by
  have hcover : op.headerMask.extractLsb' 0 8 = BitVec.allOnes 8 := by cases op <;> rfl
  have hmatch : op.headerMatch.extractLsb' 0 8 = op.code := by cases op <;> rfl
  rw [opField, ← hmatch, ← h, BitVec.extractLsb'_and, hcover, BitVec.and_allOnes]

/-- Settles O4: the mask and match fix the OP byte, and no two mnemonics share theirs. -/
theorem headerSelectsOneMnemonic : Obligations.HeaderSelectsOneMnemonic := by
  unfold Obligations.HeaderSelectsOneMnemonic
  intro hdr a b ha
  have hcode := opField_of_mask ha
  exact ⟨hcode, fun hb => code_injective (hcode.symm.trans (opField_of_mask hb))⟩

end Sys2Proof
end

section
/-! SUPPORT and PROOFS. The engine's step on a packet in CMD, on an illegal OP byte, past CMD and while idle; the moves of the
agenda; the statements on them (00_scope.md R5, 30_encoding.md R63, 43_control.md R101, R102, 60_exceptions.md R121). -/

namespace Sys2Proof.Machine

/-! ### A packet at PC (R101) -/

/-- Settles O5: the step is the packet step, which runs what is decoded. -/
theorem stepRunsTheDecodedPacket : Obligations.StepRunsTheDecodedPacket := by
  unfold Obligations.StepRunsTheDecodedPacket
  intro s i rest hrun hdec
  exact step_of_decode_ok hrun hdec

/-- Settles O6: the fetch gives the packet's words, and these decode to it. -/
theorem stepRunsThePacketInCmd : Obligations.StepRunsThePacketInCmd := by
  unfold Obligations.StepRunsThePacketInCmd
  intro s i hrun hwf hfit hcmd
  have hdec : decode (fetchPacket s) = .ok (i, []) := by
    rw [fetchPacket_of_cmd hwf hfit hcmd, ← List.append_nil (encode i), decodeOfEncodeIsThePacket i [] hwf]
  exact step_of_decode_ok hrun hdec

/-! ### Faults before any operand is read (R63, R102) -/

/-- The four ranges of R63 hold no OP byte of R61's map. -/
theorem opOf?_of_illegal {b : Byte} (h : (0x04 ≤ b.toNat ∧ b.toNat ≤ 0x0F) ∨ (0x14 ≤ b.toNat ∧ b.toNat ≤ 0x1F) ∨
    (0x22 ≤ b.toNat ∧ b.toNat ≤ 0x2F) ∨ 0x31 ≤ b.toNat) : opOf? b = none := by
  rw [opOf?_eq_none]
  rintro op rfl
  cases op <;> simp [Op.code] at h

/-- Settles O8: the second test of `CheckPacket` fails. -/
theorem illegalOpcodeFaults : Obligations.IllegalOpcodeFaults := by
  unfold Obligations.IllegalOpcodeFaults
  intro s hrun hlt hop
  have hcheck : checkPacket s s.pc.toNat = some (.illegalOpcode, cmdWord s s.pc.toNat) := by
    rw [checkPacket, if_neg (Nat.not_le.2 hlt), opOf?_of_illegal hop]
  exact step_of_checkPacket_some hrun hcheck

/-- Settles O10: the first test of `CheckPacket` fails. -/
theorem fetchPastCmdFaults : Obligations.FetchPastCmdFaults := by
  unfold Obligations.FetchPastCmdFaults
  intro s hrun hpast
  have hcheck : checkPacket s s.pc.toNat = some (.cmdBounds, 0) := by rw [checkPacket, if_pos hpast]
  exact step_of_checkPacket_some hrun hcheck

/-! ### The agenda (R5) -/

/-- Settles O11: with nothing on the agenda the step is the engine's, which idles. -/
theorem idleEngineKeepsState : Obligations.IdleEngineKeepsState := by
  unfold Obligations.IdleEngineKeepsState
  intro s hagenda hidle
  rw [step_of_agenda_nil hagenda, engineStep_idle hidle]

/-- The engine does not look at the moves to come, and leaves them. -/
theorem engineStep_agenda {s t : State} (h : engineStep s = .next t) (l : List Move) :
    engineStep { s with agenda := l } = .next { t with agenda := l } := by
  rcases engineStep_cases h with ⟨hb, rfl⟩ | ⟨hb, hc, rfl⟩ | ⟨hb, hc, r, hdec, rfl⟩ | ⟨hb, hc, i, rest, hdec, hexec⟩
  · exact engineStep_idle hb
  · exact engineStep_clear hb hc
  · rw [← fetchPacket_agenda s l] at hdec
    refine (engineStep_packet (s := { s with agenda := l }) hb hc).trans ((packetStep_error hdec).trans ?_)
    cases r <;> rfl
  · rw [← fetchPacket_agenda s l] at hdec
    exact (engineStep_packet (s := { s with agenda := l }) hb hc).trans
      ((packetStep_ok hdec).trans (exec_agenda hexec l))

theorem agenda_engineStep {s t : State} (h : engineStep s = .next t) : t.agenda = s.agenda := by
  have hsame : t = { t with agenda := s.agenda } := Host.Outcome.next.inj (h.symm.trans (engineStep_agenda h s.agenda))
  have hagenda := congrArg State.agenda hsame
  exact hagenda

/-- Settles O12: the first move is its agent's, and the engine's is the same with or without moves after it. -/
theorem agendaMovesAreTakenInOrder : Obligations.AgendaMovesAreTakenInOrder := by
  unfold Obligations.AgendaMovesAreTakenInOrder
  intro s rest addr data
  refine ⟨step_of_agenda_cons, step_of_agenda_cons, step_of_agenda_cons, fun hagenda => ?_⟩
  obtain ⟨t, ht⟩ := engineStep_isNext { s with agenda := [] }
  refine ⟨t, ht, agenda_engineStep ht, ?_⟩
  rw [step_of_agenda_cons hagenda]
  exact engineStep_agenda ht rest

end Sys2Proof.Machine
end

section
/-! SUPPORT and PROOFS. What a packet does to PC and STATUS, what a host write can do, and the statements on what each command
writes, the parameters and the invariant (10_state.md R17 to R21, R27, R29 to R31, R34, 60_exceptions.md R114). -/

namespace Sys2Proof.Machine

/-! ### What a packet writes -/

/-- Settles O56: each meaning writes the fields of its own operation. -/
theorem eachCommandWritesOnlyItsState : Obligations.EachCommandWritesOnlyItsState := by
  unfold Obligations.EachCommandWritesOnlyItsState
  intro i s t h
  cases i <;> cases h
  case rrect => split <;> simp [Instr.op]
  case encode =>
    split
    · simp [Instr.op]
    · split <;> simp [Instr.op]
  all_goals simp [Instr.op]

theorem cfg_exec {i : Instr} {s t : State} (h : exec i s = .next t) : t.cfg = s.cfg := by
  obtain ⟨-, -, -, -, hcfg, -⟩ := eachCommandWritesOnlyItsState i s t h
  exact hcfg

theorem exec_encode_of_success {s : State} {z : Bytes} (hz : zcompress s.cfg.compressor (scanStream s) = some z)
    (hfit : (pngFile s.cfg z).length ≤ s.cfg.outCap) :
    exec .encode s = .next (advance 1 (putOut s (pngFile s.cfg z))) := by
  simp only [exec, execEncode, hz, if_neg (Nat.not_lt.2 hfit)]

/-- What an ENCODE can do: raise one of its two faults over a void OUT, or put a file that fits (R98, R99). -/
theorem exec_encode_cases {s t : State} (h : exec .encode s = .next t) :
    (∃ code, (code = .compressFail ∨ code = .outOverflow) ∧ t = raiseFault code 0x00000030 (voidOut s)) ∨
    ∃ z, (pngFile s.cfg z).length ≤ s.cfg.outCap ∧ t = advance 1 (putOut s (pngFile s.cfg z)) := by
  cases hz : zcompress s.cfg.compressor (scanStream s) with
  | none =>
    rw [exec_encode_of_compressFail hz] at h
    cases h
    exact .inl ⟨_, .inl rfl, rfl⟩
  | some z =>
    rcases Nat.lt_or_ge s.cfg.outCap (pngFile s.cfg z).length with hlong | hfit
    · rw [exec_encode_of_outOverflow hz hlong] at h
      cases h
      exact .inl ⟨_, .inr rfl, rfl⟩
    · rw [exec_encode_of_success hz hfit] at h
      cases h
      exact .inr ⟨z, hfit, rfl⟩

/-- A packet raises a fault and keeps PC, or moves PC by its length and leaves STATUS, or ends the run with DONE
(R102, R106, R110). -/
theorem exec_control {i : Instr} {s t : State} (h : exec i s = .next t) :
    (∃ code, code ≠ .none ∧ t.status = { s.status with busy := false, fault := true, fcode := code } ∧ t.pc = s.pc) ∨
    (t.pc = s.pc + BitVec.ofNat 32 (i.op.length i.header) ∧
      (t.status = s.status ∨ t.status = { s.status with busy := false, done := true })) := by
  cases i
  case rrect p x0 y0 w h' r =>
    cases hok : roundRectOk (sint16 w) (sint16 h') (sint16 r) with
    | false =>
      rw [exec_rrect_of_not_ok hok] at h
      cases h
      exact .inl ⟨_, by decide, rfl, rfl⟩
    | true =>
      rw [exec_rrect_of_ok hok] at h
      cases h
      exact .inr (by simp [Instr.op, Op.length])
  case encode =>
    rcases exec_encode_cases h with ⟨code, hcode, rfl⟩ | ⟨z, -, rfl⟩
    · exact .inl ⟨code, by rcases hcode with rfl | rfl <;> decide, rfl, rfl⟩
    · exact .inr (by simp [Instr.op, Op.length])
  case endRun =>
    cases h
    exact .inr ⟨rfl, .inr rfl⟩
  all_goals
    cases h
    exact .inr (by simp [Instr.op, Instr.header, Op.length])

/-! ### What a host write can do (R14, R20 to R23, R28, R41) -/

/-- The effects that a host write of `data` can have on `s`. -/
inductive WriteEffect (data : Word) (s : State) : State → Prop
  | ignored : WriteEffect data s s
  | dropped : WriteEffect data s { s with status := { s.status with busyErr := true } }
  | reset : WriteEffect data s (softReset s)
  | start (idle : s.status.busy = false) : WriteEffect data s (startRun s)
  | status : WriteEffect data s { s with status := s.status.clear data }
  | ie (ie : IrqEnable) : WriteEffect data s { s with ie := ie }
  | pc : WriteEffect data s { s with pc := data }
  | pal (p : Pal) (c : Rgb) : WriteEffect data s (putPal s p c)
  | cmd (i : Nat) (lt : i < s.cfg.cmdWords) : WriteEffect data s (putCmd s i data)

theorem guarded_effect {data : Word} {s t : State} (h : s.status.busy = false → WriteEffect data s t) :
    WriteEffect data s (guarded s t) := by
  cases hb : s.status.busy with
  | true =>
    rw [guarded_busy hb]
    exact .dropped
  | false =>
    rw [guarded_idle hb]
    exact h hb

theorem writeCtrl_effect (data : Word) (s : State) : WriteEffect data s (writeCtrl data s) := by
  rw [writeCtrl]
  split_ifs
  · exact .reset
  · exact guarded_effect .start
  · exact .ignored

theorem regWrite_effect (data : Word) (s : State) (r : Reg) : WriteEffect data s (regWrite data s r) := by
  cases r
  case ctrl => exact writeCtrl_effect data s
  case status => exact .status
  case ie => exact .ie _
  case pc => exact guarded_effect fun _ => .pc
  case pal p => exact guarded_effect fun _ => .pal p _
  all_goals exact .ignored

theorem regTarget_ne_cmdWord (off i : Nat) : regTarget off ≠ .cmdWord i := by
  rw [regTarget]
  split <;> exact Target.noConfusion

/-- The address map gives words of CMD below CMD_WORDS only (R41). -/
theorem lt_of_targetAt_eq_cmdWord {c : Config} {off i : Nat} (h : targetAt c off = .cmdWord i) : i < c.cmdWords := by
  unfold targetAt at h
  split_ifs at h with hreg _ _ hcmd
  · exact absurd h (regTarget_ne_cmdWord off i)
  · cases h
    exact hcmd

/-- Everything that a host write does, whatever its offset. -/
theorem writeOffset_effect (data : Word) (off : Nat) (s : State) : WriteEffect data s (writeOffset data off s) := by
  rw [writeOffset]
  cases htarget : targetAt s.cfg off with
  | reg r => exact regWrite_effect data s r
  | cmdWord i => exact guarded_effect fun _ => .cmd i (lt_of_targetAt_eq_cmdWord htarget)
  | canvasWord i => exact .ignored
  | outWord k => exact .ignored
  | unmapped => exact .ignored

/-! ### The parameters (R17 to R19, R36) -/

theorem cfg_engineStep {s t : State} (h : engineStep s = .next t) : t.cfg = s.cfg := by
  rcases engineStep_cases h with ⟨-, rfl⟩ | ⟨-, -, rfl⟩ | ⟨-, -, r, -, rfl⟩ | ⟨-, -, i, rest, -, hexec⟩
  · rfl
  · rfl
  · obtain ⟨code, info, -, hr⟩ := raiseReject_eq r s
    rw [hr, raiseFault_cfg]
  · exact cfg_exec hexec

theorem WriteEffect.cfg_eq {data : Word} {s t : State} (h : WriteEffect data s t) : t.cfg = s.cfg := by
  cases h
  case pal p c => exact putPal_cfg s p c
  all_goals rfl

/-- Settles O55: no agent's move writes the parameters. -/
theorem noStepChangesTheParameters : Obligations.NoStepChangesTheParameters := by
  unfold Obligations.NoStepChangesTheParameters
  intro s t hstep
  rcases step_cases hstep with ⟨-, heng⟩ | ⟨m, rest, -, ⟨-, heng⟩ | ⟨addr, -, rfl⟩ | ⟨addr, data, -, rfl⟩ | ⟨-, rfl⟩⟩
  · exact cfg_engineStep heng
  · exact cfg_engineStep (s := { s with agenda := rest }) heng
  · rfl
  · exact (writeOffset_effect data (busOffset addr) { s with agenda := rest }).cfg_eq
  · rfl

/-! ### The memories (R27, R29 to R31) -/

/-- OUT lists exactly its first OUT_LEN bytes, and OUT_LEN is at most OUT_CAP. -/
def State.OutOk (s : State) : Prop :=
  Memory.wf none s.outLen.toNat s.out = true ∧ s.out.length = s.outLen.toNat ∧ s.outLen.toNat ≤ s.cfg.outCap

theorem memoryOk_iff (s : State) :
    s.memoryOk = true ↔ Memory.wf (some 0) s.cfg.canvasBytes s.canvas = true ∧
      Memory.wf none s.cfg.cmdWords s.cmd = true ∧ s.OutOk := by
  simp [State.memoryOk, State.OutOk, and_assoc]

theorem outOk_of_empty {s : State} (hout : s.out = []) (hlen : s.outLen = 0) : s.OutOk := by
  simp [State.OutOk, hout, hlen]

theorem outOk_congr {s t : State} (hout : t.out = s.out) (hlen : t.outLen = s.outLen) (hcfg : t.cfg = s.cfg)
    (h : s.OutOk) : t.OutOk := by rwa [State.OutOk, hout, hlen, hcfg]

/-- A length up to OUT_CAP is below 2^32. -/
theorem toNat_length_of_le_outCap {c : Config} {f : Bytes} (h : f.length ≤ c.outCap) :
    (BitVec.ofNat 32 f.length).toNat = f.length := by
  have hcap := c.outCap_range
  rw [BitVec.toNat_ofNat, Nat.mod_eq_of_lt (by omega)]

theorem outOk_putOut {s : State} {f : Bytes} (h : f.length ≤ s.cfg.outCap) : (putOut s f).OutOk := by
  simp only [State.OutOk, putOut_outLen, putOut_out, putOut_cfg, toNat_length_of_le_outCap h, Memory.length_ofList,
    true_and]
  exact ⟨Memory.wf_ofList f, h⟩

theorem wf_paintAll {s : State} (h : Memory.wf (some 0) s.cfg.canvasBytes s.canvas = true)
    (shapes : List (Int → Int → Bool)) (c : Rgba) :
    Memory.wf (some 0) s.cfg.canvasBytes (paintAll shapes c s).canvas = true := by
  induction shapes generalizing s with
  | nil => exact h
  | cons shape shapes ih => exact ih (s := paint shape c s) (wf_paint h shape c)

theorem exec_keeps_canvas_wf {i : Instr} {s t : State} (hexec : exec i s = .next t)
    (h : Memory.wf (some 0) s.cfg.canvasBytes s.canvas = true) :
    Memory.wf (some 0) s.cfg.canvasBytes t.canvas = true := by
  cases i
  case clear =>
    cases hexec
    rfl
  case pixel x y c =>
    cases hexec
    exact wf_setPixel h _ _ c
  case rect | circle =>
    cases hexec
    exact wf_paint h _ _
  case rrect p x0 y0 w h' r =>
    cases hok : roundRectOk (sint16 w) (sint16 h') (sint16 r) with
    | false =>
      rw [exec_rrect_of_not_ok hok] at hexec
      cases hexec
      exact h
    | true =>
      rw [exec_rrect_of_ok hok, fillRoundRect_eq_paintAll] at hexec
      cases hexec
      exact wf_paintAll h _ _
  all_goals
    obtain ⟨-, -, -, -, -, -, -, -, -, -, -, hcanvas, -⟩ := eachCommandWritesOnlyItsState _ s t hexec
    rwa [hcanvas (by simp [Instr.op])]

theorem op_eq_encode_iff (i : Instr) : i.op = .encode ↔ i = .encode := by cases i <;> simp [Instr.op]

theorem exec_keeps_outOk {i : Instr} {s t : State} (hexec : exec i s = .next t) (h : s.OutOk) : t.OutOk := by
  by_cases hop : i.op = .encode
  · obtain rfl := (op_eq_encode_iff i).1 hop
    rcases exec_encode_cases hexec with ⟨code, -, rfl⟩ | ⟨z, hfit, rfl⟩
    · exact outOk_of_empty rfl rfl
    · exact outOk_putOut hfit
  · obtain ⟨-, -, -, -, hcfg, -, -, -, -, hout, -⟩ := eachCommandWritesOnlyItsState i s t hexec
    exact outOk_congr (hout hop).1 (hout hop).2 hcfg h

theorem exec_keeps_memoryOk {i : Instr} {s t : State} (hexec : exec i s = .next t) (h : s.memoryOk = true) :
    t.memoryOk = true := by
  obtain ⟨hcanvas, hcmd, hout⟩ := (memoryOk_iff s).1 h
  rw [memoryOk_iff, cfg_exec hexec, (exec_keeps_cmd hexec).1]
  exact ⟨exec_keeps_canvas_wf hexec hcanvas, hcmd, exec_keeps_outOk hexec hout⟩

theorem softReset_memoryOk {s : State} (h : s.memoryOk = true) : (softReset s).memoryOk = true := by
  obtain ⟨hcanvas, hcmd, -⟩ := (memoryOk_iff s).1 h
  exact (memoryOk_iff _).2 ⟨hcanvas, hcmd, outOk_of_empty rfl rfl⟩

theorem hardReset_memoryOk {s : State} (h : s.memoryOk = true) : (hardReset s).memoryOk = true := by
  obtain ⟨hcanvas, -, -⟩ := (memoryOk_iff s).1 h
  exact (memoryOk_iff _).2 ⟨hcanvas, rfl, outOk_of_empty rfl rfl⟩

theorem resetClear_memoryOk {s : State} (h : s.memoryOk = true) : (resetClear s).memoryOk = true := by
  obtain ⟨-, hcmd, hout⟩ := (memoryOk_iff s).1 h
  exact (memoryOk_iff _).2 ⟨rfl, hcmd, hout⟩

theorem WriteEffect.keeps_memoryOk {data : Word} {s t : State} (heff : WriteEffect data s t) (h : s.memoryOk = true) :
    t.memoryOk = true := by
  cases heff
  case reset => exact softReset_memoryOk h
  case pal p c => cases p <;> exact h
  case cmd i hlt =>
    obtain ⟨hcanvas, hcmd, hout⟩ := (memoryOk_iff s).1 h
    exact (memoryOk_iff _).2 ⟨hcanvas, Memory.wf_put hcmd hlt data, hout⟩
  all_goals exact h

/-! ### The STATUS bits (R20, R21, R34, R114) -/

/-- The four clauses of `statusOk`. -/
theorem statusOk_iff (s : State) :
    s.statusOk = true ↔ ¬ (s.status.done = true ∧ s.status.fault = true) ∧
      (s.status.busy = true → s.status.done = false ∧ s.status.fault = false) ∧
      (s.status.fault = true ↔ s.status.fcode ≠ .none) ∧ (s.clrPend = true → s.status.busy = true) := by
  rw [State.statusOk]
  cases s.status.done <;> cases s.status.fault <;> cases s.status.busy <;> cases s.clrPend <;> simp

/-- A fault that ends a run leaves consistent STATUS bits. -/
theorem statusOk_of_fault {s t : State} {code : FaultCode} (hs : s.statusOk = true) (hb : s.status.busy = true)
    (hcode : code ≠ .none) (hstatus : t.status = { s.status with busy := false, fault := true, fcode := code })
    (hc : t.clrPend = false) : t.statusOk = true := by
  obtain ⟨-, hbusy, -, -⟩ := (statusOk_iff s).1 hs
  rw [statusOk_iff, hstatus, hc]
  simp [hbusy hb, hcode]

/-- END leaves consistent STATUS bits. -/
theorem statusOk_of_done {s t : State} (hs : s.statusOk = true) (hb : s.status.busy = true)
    (hstatus : t.status = { s.status with busy := false, done := true }) (hc : t.clrPend = false) :
    t.statusOk = true := by
  obtain ⟨-, hbusy, hfcode, -⟩ := (statusOk_iff s).1 hs
  obtain ⟨-, hfault⟩ := hbusy hb
  rw [statusOk_iff, hstatus, hc]
  simpa [hfault] using hfcode

theorem statusOk_congr {s t : State} (hstatus : t.status = s.status) (hc : t.clrPend = s.clrPend)
    (h : s.statusOk = true) : t.statusOk = true := by rwa [State.statusOk, hstatus, hc]

theorem exec_keeps_statusOk {i : Instr} {s t : State} (hexec : exec i s = .next t) (hb : s.status.busy = true)
    (hc : s.clrPend = false) (h : s.statusOk = true) : t.statusOk = true := by
  obtain ⟨-, -, -, hclr, -⟩ := eachCommandWritesOnlyItsState i s t hexec
  rcases exec_control hexec with ⟨code, hcode, hstatus, -⟩ | ⟨-, hstatus | hstatus⟩
  · exact statusOk_of_fault h hb hcode hstatus (hclr.trans hc)
  · exact statusOk_congr hstatus hclr h
  · exact statusOk_of_done h hb hstatus (hclr.trans hc)

theorem resetClear_statusOk {s : State} (hb : s.status.busy = true) (h : s.statusOk = true) :
    (resetClear s).statusOk = true := by
  obtain ⟨-, hbusy, hfcode, -⟩ := (statusOk_iff s).1 h
  obtain ⟨hdone, hfault⟩ := hbusy hb
  rw [statusOk_iff]
  simpa [hdone, hfault] using hfcode

/-- Write-1-to-clear keeps the bits consistent: FCODE goes with FAULT. -/
theorem statusOk_clear {s : State} (data : Word) (h : s.statusOk = true) :
    ({ s with status := s.status.clear data } : State).statusOk = true := by
  obtain ⟨hboth, hbusy, hfcode, hclr⟩ := (statusOk_iff s).1 h
  refine (statusOk_iff _).2 ⟨?both, ?busy, ?fcode, hclr⟩
  case both =>
    rintro ⟨hdone, hfault⟩
    simp only [Status.clear, Bool.and_eq_true] at hdone hfault
    exact hboth ⟨hdone.1, hfault.1⟩
  case busy =>
    intro hb
    simp [Status.clear, hbusy hb]
  case fcode =>
    simp only [Status.clear]
    cases data.getLsbD 2
    · simpa using hfcode
    · simp

theorem WriteEffect.keeps_statusOk {data : Word} {s t : State} (heff : WriteEffect data s t) (h : s.statusOk = true) :
    t.statusOk = true := by
  cases heff
  case reset => rfl
  case start => simp [statusOk_iff]
  case status => exact statusOk_clear data h
  case pal p c => exact statusOk_congr (putPal_status s p c) (putPal_clrPend s p c) h
  all_goals exact h

/-! ### The invariant -/

theorem inv_iff (s : State) : s.Inv = true ↔ s.memoryOk = true ∧ s.statusOk = true := by simp [State.Inv]

theorem engineStep_keeps_inv {s t : State} (hstep : engineStep s = .next t) (h : s.Inv = true) : t.Inv = true := by
  obtain ⟨hmem, hstat⟩ := (inv_iff s).1 h
  rw [inv_iff]
  rcases engineStep_cases hstep with ⟨-, rfl⟩ | ⟨hb, -, rfl⟩ | ⟨hb, hc, r, -, rfl⟩ | ⟨hb, hc, i, rest, -, hexec⟩
  · exact ⟨hmem, hstat⟩
  · exact ⟨resetClear_memoryOk hmem, resetClear_statusOk hb hstat⟩
  · obtain ⟨code, info, hcode, hr⟩ := raiseReject_eq r s
    rw [hr]
    exact ⟨hmem, statusOk_of_fault hstat hb hcode rfl hc⟩
  · exact ⟨exec_keeps_memoryOk hexec hmem, exec_keeps_statusOk hexec hb hc hstat⟩

theorem WriteEffect.keeps_inv {data : Word} {s t : State} (heff : WriteEffect data s t) (h : s.Inv = true) :
    t.Inv = true := by
  obtain ⟨hmem, hstat⟩ := (inv_iff s).1 h
  exact (inv_iff t).2 ⟨heff.keeps_memoryOk hmem, heff.keeps_statusOk hstat⟩

theorem hardReset_inv {s : State} (h : s.Inv = true) : (hardReset s).Inv = true :=
  (inv_iff _).2 ⟨hardReset_memoryOk ((inv_iff s).1 h).1, rfl⟩

/-- Settles O53: each agent's move keeps the memories canonical and the STATUS bits consistent. -/
theorem stepKeepsTheInvariant : Obligations.StepKeepsTheInvariant := by
  unfold Obligations.StepKeepsTheInvariant
  intro s t h hstep
  rcases step_cases hstep with ⟨-, heng⟩ | ⟨m, rest, -, hmove⟩
  · exact engineStep_keeps_inv heng h
  · have hrest : ({ s with agenda := rest } : State).Inv = true := h
    rcases hmove with ⟨-, heng⟩ | ⟨addr, -, rfl⟩ | ⟨addr, data, -, rfl⟩ | ⟨-, rfl⟩
    · exact engineStep_keeps_inv heng hrest
    · exact h
    · exact (writeOffset_effect data (busOffset addr) { s with agenda := rest }).keeps_inv hrest
    · exact hardReset_inv hrest

/-- Settles O54: the memories of the reset state are canonical, and its STATUS bits are BUSY alone. -/
theorem resetMeetsTheInvariant : Obligations.ResetMeetsTheInvariant := by
  unfold Obligations.ResetMeetsTheInvariant
  exact (inv_iff _).2 ⟨reset_memoryOk, rfl⟩

end Sys2Proof.Machine
end

section
/-! SUPPORT and PROOFS. Where a packet step leaves PC, how a run goes on, and the statements on PC and on the length of a run
(43_control.md R101, R102, R104). -/

namespace Sys2Proof.Machine

/-! ### A decoded packet lies in CMD -/

/-- What decodes at PC has its header there, and all its words below CMD_WORDS. -/
theorem decoded_in_cmd {s : State} {i : Instr} {rest : List Word} (hdec : decode (fetchPacket s) = .ok (i, rest)) :
    i.op.length i.header = packetLen (cmdWord s s.pc.toNat) ∧
      s.pc.toNat + packetLen (cmdWord s s.pc.toNat) ≤ s.cfg.cmdWords := by
  obtain ⟨hwf, hwords⟩ := decodedWordsAreThePacketsEncoding _ _ _ hdec
  have hlen := length_encode hwf
  have hlt : s.pc.toNat < s.cfg.cmdWords := by
    by_contra hpast
    rw [fetchPacket_eq, if_neg hpast] at hwords
    cases hwords
  rw [fetchPacket_eq, if_pos hlt] at hwords
  have hheader : i.header = cmdWord s s.pc.toNat := by
    rw [encode, List.cons_append] at hwords
    exact (List.cons.inj hwords).1
  rw [← packetLen_header hwf, hheader] at hlen
  have hcount := congrArg List.length hwords
  rw [List.length_append, ← packetLen_header hwf, hheader, List.length_cons, length_cmdWordsFrom] at hcount
  have hone := one_le_packetLen (cmdWord s s.pc.toNat)
  exact ⟨by rw [hheader, hlen], by omega⟩

/-- PC does not wrap over a packet that fits. -/
theorem toNat_pc_add {s : State} {n : Nat} (hfit : s.pc.toNat + n ≤ s.cfg.cmdWords) :
    (s.pc + BitVec.ofNat 32 n).toNat = s.pc.toNat + n := by
  have hcmd := s.cfg.cmdWords_range
  rw [BitVec.toNat_add, BitVec.toNat_ofNat]
  omega

/-- A packet step faults and keeps PC, or moves PC past its packet and leaves STATUS or ends the run with DONE. -/
theorem packet_step_cases {s t : State} (hrun : s.runsPacket = true) (hstep : step s = .next t) :
    (t.status.busy = false ∧ t.status.fault = true ∧ t.pc = s.pc) ∨
    (t.pc.toNat = s.pc.toNat + packetLen (cmdWord s s.pc.toNat) ∧ t.pc.toNat ≤ s.cfg.cmdWords ∧
      (t.status = s.status ∨ t.status = { s.status with busy := false, done := true })) := by
  cases hdec : decode (fetchPacket s) with
  | error r =>
    rw [step_of_decode_error hrun hdec] at hstep
    cases hstep
    obtain ⟨code, info, -, hr⟩ := raiseReject_eq r s
    rw [hr]
    exact .inl ⟨rfl, rfl, rfl⟩
  | ok p =>
    obtain ⟨hlen, hfit⟩ := decoded_in_cmd hdec
    rw [step_of_decode_ok hrun hdec] at hstep
    rcases exec_control hstep with ⟨code, -, hstatus, hpc⟩ | ⟨hpc, hstatus⟩
    · exact .inl ⟨by rw [hstatus], by rw [hstatus], hpc⟩
    · rw [hlen] at hpc
      have hmoved : t.pc.toNat = s.pc.toNat + packetLen (cmdWord s s.pc.toNat) := by rw [hpc, toNat_pc_add hfit]
      exact .inr ⟨hmoved, hmoved ▸ hfit, hstatus⟩

/-- Settles O58: STATUS.FAULT tells the two cases of a packet step apart. -/
theorem packetStepMovesPcByItsLength : Obligations.PacketStepMovesPcByItsLength := by
  unfold Obligations.PacketStepMovesPcByItsLength
  intro s t hrun hs hstep
  rcases packet_step_cases hrun hstep with ⟨-, hfault, hpc⟩ | ⟨hpc, hle, hstatus⟩
  · exact ⟨fun hno => absurd (hfault.symm.trans hno) (by decide), fun _ => hpc⟩
  · have hno : t.status.fault = false := by rcases hstatus with h | h <;> rw [h, ← hs]
    exact ⟨fun _ => ⟨hpc, hle⟩, fun hyes => absurd (hyes.symm.trans hno) (by decide)⟩

/-! ### A run ends (R104) -/

theorem clrPend_packetStep {s t : State} (h : packetStep s = .next t) : t.clrPend = s.clrPend := by
  cases hdec : decode (fetchPacket s) with
  | error r =>
    rw [packetStep_error hdec] at h
    cases h
    obtain ⟨code, info, -, hr⟩ := raiseReject_eq r s
    rw [hr, raiseFault_clrPend]
  | ok p =>
    rw [packetStep_ok hdec] at h
    obtain ⟨-, -, -, hclr, -⟩ := eachCommandWritesOnlyItsState _ s t h
    exact hclr

theorem run_succ_of_step {s t : State} (h : step s = .next t) (k : Nat) :
    Host.Core.run core (k + 1) s = Host.Core.run core k t := by
  have hcore : core.step s = .next t := h
  simp only [Host.Core.run, hcore]

/-- The engine is idle with DONE or FAULT set. -/
def State.RunEnded (s : State) : Prop := s.status.busy = false ∧ (s.status.done = true ∨ s.status.fault = true)

/-- A packet step ends the run, or the engine runs another packet further on in CMD. -/
theorem packet_step_progress {s : State} (hrun : s.runsPacket = true) :
    ∃ t, step s = .next t ∧ (t.RunEnded ∨
      (t.runsPacket = true ∧ t.cfg = s.cfg ∧ s.pc.toNat < t.pc.toNat ∧ t.pc.toNat ≤ s.cfg.cmdWords)) := by
  obtain ⟨hagenda, hb, hc⟩ := (runsPacket_iff s).1 hrun
  obtain ⟨t, ht⟩ := engineStep_isNext s
  have hstep : step s = .next t := by rw [step_of_agenda_nil hagenda, ht]
  refine ⟨t, hstep, ?_⟩
  rcases packet_step_cases hrun hstep with ⟨hidle, hfault, -⟩ | ⟨hpc, hle, hstatus | hstatus⟩
  · exact .inl ⟨hidle, .inr hfault⟩
  · have hone := one_le_packetLen (cmdWord s s.pc.toNat)
    have hclr : t.clrPend = false := by
      rw [engineStep_packet hb hc] at ht
      rw [clrPend_packetStep ht, hc]
    have hnext : t.runsPacket = true :=
      (runsPacket_iff t).2 ⟨(agenda_engineStep ht).trans hagenda, by rw [hstatus, hb], hclr⟩
    exact .inr ⟨hnext, cfg_engineStep ht, by omega, hle⟩
  · exact .inl (by simp [State.RunEnded, hstatus])

/-- Each packet step leaves fewer words of CMD before PC. -/
theorem exists_run_ended {s : State} (hrun : s.runsPacket = true) (n : Nat) (hn : s.cfg.cmdWords < s.pc.toNat + n + 1) :
    ∃ k t, k ≤ n + 1 ∧ Host.Core.run core k s = .next t ∧ t.RunEnded := by
  induction n generalizing s with
  | zero =>
    obtain ⟨t, hstep, hend | ⟨-, -, hlt, hle⟩⟩ := packet_step_progress hrun
    · exact ⟨1, t, Nat.le_refl 1, run_succ_of_step hstep 0, hend⟩
    · omega
  | succ n ih =>
    obtain ⟨t, hstep, hend | ⟨hnext, hcfg, hlt, -⟩⟩ := packet_step_progress hrun
    · exact ⟨1, t, by omega, run_succ_of_step hstep 0, hend⟩
    · obtain ⟨k, u, hk, hsteps, hend⟩ := ih hnext (by rw [hcfg]; omega)
      exact ⟨k + 1, u, by omega, (run_succ_of_step hstep k).trans hsteps, hend⟩

/-- Settles O60: PC can move up at most CMD_WORDS times. -/
theorem everyRunEnds : Obligations.EveryRunEnds := by
  unfold Obligations.EveryRunEnds
  intro s hrun
  exact exists_run_ended hrun s.cfg.cmdWords (by omega)

end Sys2Proof.Machine
end

section
/-! SUPPORT and PROOFS. The commands one by one: control, palette, drawing, checksum and a successful ENCODE (40_checksum.md
R71, R74, R75, 41_raster.md R82 to R87, 42_encoder.md R98, 43_control.md R105, R106). -/

namespace Sys2Proof.Machine

/-! ### Control (R105, R106) -/

/-- Settles O13: the meaning of NOP is `advance 1`. -/
theorem nopOnlyAdvancesPc : Obligations.NopOnlyAdvancesPc := by
  unfold Obligations.NopOnlyAdvancesPc
  intro s
  rfl

/-- Settles O14: the meaning of END is `endRun` after `advance 1`. -/
theorem endStopsTheRun : Obligations.EndStopsTheRun := by
  unfold Obligations.EndStopsTheRun
  intro s
  rfl

/-! ### The palette (R82) -/

theorem regRead_pal_putPal (s : State) (p q : Pal) (c : Rgb) :
    regRead (putPal s p c) (.pal q) = if q = p then c.toWord else regRead s (.pal q) := by
  rw [regRead, regRead, palColour_putPal]
  split <;> rfl

/-- `putPal` writes the palette and nothing else. -/
theorem putPal_frame (s : State) (p : Pal) (c : Rgb) : putPal s p c = { s with pal := (putPal s p c).pal } := by
  cases p <;> rfl

/-- Settles O15: the meaning of SETPAL is `putPal`. -/
theorem setpalWritesOneEntry : Obligations.SetpalWritesOneEntry := by
  unfold Obligations.SetpalWritesOneEntry
  intro p c s
  refine ⟨advance 2 (putPal s p c), rfl, ?_, fun q hq => ?_, ?_⟩
  · exact (regRead_pal_putPal s p p c).trans (if_pos rfl)
  · exact (regRead_pal_putPal s p q c).trans (if_neg hq)
  · rw [putPal_frame]
    rfl

/-! ### Drawing (R83 to R87) -/

/-- Settles O16: CLEAR leaves no byte of the canvas listed. -/
theorem clearZeroesTheCanvas : Obligations.ClearZeroesTheCanvas := by
  unfold Obligations.ClearZeroesTheCanvas
  intro s
  exact ⟨advance 1 (zeroCanvas s), rfl, canvasByte_zeroCanvas s, rfl⟩

/-- SetPixel writes the four bytes of its pixel only. -/
theorem canvasByte_setPixel_outside {x y : Int} (c : Rgba) {s : State} {a : Nat}
    (h : a < pixelAddr s.cfg x y ∨ pixelAddr s.cfg x y + 4 ≤ a) :
    canvasByte (setPixel x y c s) a = canvasByte s a := by
  rw [canvasByte_setPixel, if_neg (by omega)]

/-- Settles O17: the meaning of PIXEL is `setPixel`. -/
theorem pixelWritesOnePixel : Obligations.PixelWritesOnePixel := by
  unfold Obligations.PixelWritesOnePixel
  intro x y c s
  refine ⟨advance 3 (setPixel (sint16 x) (sint16 y) c s), rfl, fun hon => ?_, fun a ha => ?_, fun hoff => ?_, ?_⟩
  · rw [pixelAt_advance, pixelAt_setPixel _ _ _ _ hon, if_pos ⟨rfl, rfl⟩]
  · rw [canvasByte_advance, canvasByte_setPixel_outside c ha]
  · rw [setPixel_off hoff]
    rfl
  · rw [setPixel_frame]
    rfl

/-- Settles O18: the meaning of RECT paints `inBox`. -/
theorem rectPaintsItsBox : Obligations.RectPaintsItsBox := by
  unfold Obligations.RectPaintsItsBox
  intro p x0 y0 w h s
  refine ⟨_, rfl, fun x y hon => ?_, fun a ha => ?_, rfl⟩
  · rw [pixelAt_advance, fillRect, pixelAt_paint _ _ _ hon, opaqueColour]
    simp only [inBox_iff]
  · rw [canvasByte_advance, fillRect, canvasByte_paint_past _ _ _ ha]

/-- A coordinate of the bounding square is one at most `r` away from the centre. -/
theorem abs_sub_le_iff_between (x c r : Int) : |x - c| ≤ r ↔ c - r ≤ x ∧ x ≤ c + r := by
  rw [abs_le]
  omega

/-- Settles O19: the meaning of CIRCLE paints `inDisc`. -/
theorem circlePaintsItsDisc : Obligations.CirclePaintsItsDisc := by
  unfold Obligations.CirclePaintsItsDisc
  intro p cx cy r s
  refine ⟨_, rfl, fun x y hon => ?_, fun a ha => ?_, rfl⟩
  · rw [pixelAt_advance, fillCircle, pixelAt_paint _ _ _ hon, opaqueColour]
    simp only [inDisc_iff, abs_sub_le_iff_between, sq]
  · rw [canvasByte_advance, fillCircle, canvasByte_paint_past _ _ _ ha]

theorem roundRectOk_iff (w h r : Int) : roundRectOk w h r = true ↔ 0 ≤ r ∧ 2 * r < w ∧ 2 * r < h := by
  simp [roundRectOk, and_assoc]

/-- Settles O21: out of range the meaning of RRECT is its fault. -/
theorem rrectOutOfRangeFaults : Obligations.RrectOutOfRangeFaults := by
  unfold Obligations.RrectOutOfRangeFaults
  intro p x0 y0 w h r s hrange
  rw [← roundRectOk_iff, Bool.not_eq_true] at hrange
  exact exec_rrect_of_not_ok hrange p x0 y0 s

/-! ### The checksum (R71, R74, R75) -/

/-- Settles O22: CRC_VALUE is CRC_ACC with every bit inverted. -/
theorem crcinitSetsAllOnes : Obligations.CrcinitSetsAllOnes := by
  unfold Obligations.CrcinitSetsAllOnes
  intro s
  exact ⟨_, rfl, rfl, BitVec.xor_self⟩

/-- Settles O23: with `ceil(N/4)` data words the packet's bytes are R60's. -/
theorem crcdataUpdatesTheAccumulator : Obligations.CrcdataUpdatesTheAccumulator := by
  unfold Obligations.CrcdataUpdatesTheAccumulator
  intro n data s hlen
  exact exec_crcdata hlen s

/-- Settles O26: both inputs are closed, and the kernel runs the table steps. -/
theorem checksumKnownValues : Obligations.ChecksumKnownValues := by
  unfold Obligations.ChecksumKnownValues
  decide +kernel

/-! ### The table step and the shift register (R69, R70) -/

/-- A round of the shift register is linear. -/
theorem crcRound_xor (x y : Word) : crcRound (x ^^^ y) = crcRound x ^^^ crcRound y := by
  rw [crcRound, crcRound, crcRound, BitVec.getLsbD_xor, BitVec.ushiftRight_xor_distrib]
  generalize x >>> 1 = u
  generalize y >>> 1 = v
  cases x.getLsbD 0 <;> cases y.getLsbD 0
  case false.false => rfl
  case false.true => exact BitVec.xor_assoc u v crcPoly
  case true.false =>
    show u ^^^ v ^^^ crcPoly = u ^^^ crcPoly ^^^ v
    ac_rfl
  case true.true =>
    calc u ^^^ v = u ^^^ v ^^^ (crcPoly ^^^ crcPoly) := by rw [BitVec.xor_self, BitVec.xor_zero]
      _ = u ^^^ crcPoly ^^^ (v ^^^ crcPoly) := by ac_rfl

theorem crcRounds_xor (n : Nat) (x y : Word) : crcRounds n (x ^^^ y) = crcRounds n x ^^^ crcRounds n y := by
  induction n generalizing x y with
  | zero => rfl
  | succ n ih => rw [crcRounds, crcRound_xor, ih, crcRounds, crcRounds]

/-- While only zeros leave the register, the rounds are a shift. -/
theorem crcRounds_of_low_zero (n : Nat) {c : Word} (h : ∀ i, i < n → c.getLsbD i = false) : crcRounds n c = c >>> n := by
  induction n generalizing c with
  | zero => rfl
  | succ n ih =>
    have hround : crcRound c = c >>> 1 := by rw [crcRound, h 0 (Nat.zero_lt_succ n)]; rfl
    have hnext : ∀ i, i < n → (c >>> 1).getLsbD i = false := by
      intro i hi
      rw [BitVec.getLsbD_ushiftRight, Nat.add_comm, h (i + 1) (Nat.succ_lt_succ hi)]
    rw [crcRounds, hround, ih hnext, ← BitVec.shiftRight_add, Nat.add_comm]

/-- A word is its low byte and the bits above it. -/
theorem low_byte_xor_rest (w : Word) : (byteOf w 0).setWidth 32 ^^^ (w >>> 8 <<< 8) = w := by
  apply BitVec.eq_of_getLsbD_eq
  intro i hi
  rcases Nat.lt_or_ge i 8 with hlow | hhigh
  · simp [byteOf, hi, hlow]
  · simp [byteOf, hi, Nat.not_lt.2 hhigh, Nat.add_sub_cancel' hhigh]

theorem rest_shiftRight (w : Word) : w >>> 8 <<< 8 >>> 8 = w >>> 8 := by
  apply BitVec.eq_of_getLsbD_eq
  intro i hi
  rcases Nat.lt_or_ge (8 + i) 32 with hin | hout
  · simp [hin]
  · simp [Nat.not_lt.2 hout, BitVec.getLsbD_of_ge w _ hout]

/-- Settles O29: the rounds are linear, and of the bits above the low byte eight rounds make a shift. -/
theorem tableStepIsEightSerialRounds : Obligations.TableStepIsEightSerialRounds := by
  unfold Obligations.TableStepIsEightSerialRounds
  intro acc b
  have hrest : crcRounds 8 (acc >>> 8 <<< 8) = acc >>> 8 := by
    rw [crcRounds_of_low_zero 8 (by intro i hi; simp [hi]), rest_shiftRight]
  have hsplit : acc ^^^ b.setWidth 32 = (byteOf acc 0 ^^^ b).setWidth 32 ^^^ (acc >>> 8 <<< 8) := by
    rw [BitVec.setWidth_xor]
    calc acc ^^^ b.setWidth 32
        = (byteOf acc 0).setWidth 32 ^^^ (acc >>> 8 <<< 8) ^^^ b.setWidth 32 := by rw [low_byte_xor_rest]
      _ = (byteOf acc 0).setWidth 32 ^^^ b.setWidth 32 ^^^ (acc >>> 8 <<< 8) := by ac_rfl
  rw [hsplit, crcRounds_xor, hrest, crcStep, crcTable]

end Sys2Proof.Machine
end

section
/-! SUPPORT and PROOFS. SetPixel over a list of points, the canvas byte by byte from its pixels, and the statements on R80's loops
(41_raster.md R80, R81). -/

namespace Sys2Proof.Machine

/-! ### Bytes and pixels -/

/-- The address of the pixel of a window word (20_memory.md R42, R44). -/
theorem pixelAddr_of_index (c : Config) (i : Nat) : pixelAddr c (i % c.width : Nat) (i / c.width : Nat) = 4 * i := by
  rw [pixelAddr, Int.toNat_natCast, Int.toNat_natCast, Nat.mul_comm (i / c.width), Nat.div_add_mod, Nat.mul_comm]

theorem onCanvas_of_index {c : Config} {i : Nat} (h : i < c.pixels) :
    onCanvas c (i % c.width : Nat) (i / c.width : Nat) = true := by
  obtain ⟨hpos, -⟩ := c.width_range
  have hx : i % c.width < c.width := Nat.mod_lt i hpos
  have hy : i / c.width < c.height := Nat.div_lt_of_lt_mul h
  exact (onCanvas_iff ..).2 ⟨Int.natCast_nonneg _, Int.ofNat_lt.2 hx, Int.natCast_nonneg _, Int.ofNat_lt.2 hy⟩

/-- A byte is a channel of its pixel. -/
theorem canvasByte_eq_channel (s : State) (a : Nat) :
    canvasByte s a = channel (pixelAt s (a / 4 % s.cfg.width : Nat) (a / 4 / s.cfg.width : Nat)) (a % 4) := by
  have haddr : a = 4 * (a / 4) + a % 4 := by omega
  have hj : a % 4 = 0 ∨ a % 4 = 1 ∨ a % 4 = 2 ∨ a % 4 = 3 := by omega
  rw [pixelAt, pixelAddr_of_index]
  rcases hj with h | h | h | h <;> rw [h] at haddr ⊢ <;> exact congrArg (canvasByte s) haddr

/-- Canvases with the same pixels, and the same bytes past them, have the same bytes. -/
theorem canvasByte_congr {s t : State} (hcfg : t.cfg = s.cfg)
    (hpix : ∀ x y, onCanvas s.cfg x y = true → pixelAt t x y = pixelAt s x y)
    (hpast : ∀ a, s.cfg.canvasBytes ≤ a → canvasByte t a = canvasByte s a) (a : Nat) :
    canvasByte t a = canvasByte s a := by
  rcases Nat.lt_or_ge a s.cfg.canvasBytes with ha | ha
  · have hi : a / 4 < s.cfg.pixels := by rw [Config.canvasBytes] at ha; omega
    rw [canvasByte_eq_channel t, canvasByte_eq_channel s, hcfg, hpix _ _ (onCanvas_of_index hi)]
  · exact hpast a ha

/-! ### SetPixel over a list of points -/

/-- SetPixel in one colour at each of the points, first one first. -/
def setPixels (points : List (Int × Int)) (c : Rgba) (s : State) : State :=
  points.foldl (fun s p => setPixel p.1 p.2 c s) s

theorem setPixels_cons (p : Int × Int) (points : List (Int × Int)) (c : Rgba) (s : State) :
    setPixels (p :: points) c s = setPixels points c (setPixel p.1 p.2 c s) := rfl

theorem setPixels_frame (points : List (Int × Int)) (c : Rgba) (s : State) :
    setPixels points c s = { s with canvas := (setPixels points c s).canvas } := by
  induction points generalizing s with
  | nil => rfl
  | cons p points ih =>
    rw [setPixels_cons, ih, setPixel_frame]

theorem setPixels_cfg (points : List (Int × Int)) (c : Rgba) (s : State) : (setPixels points c s).cfg = s.cfg := by
  rw [setPixels_frame]

/-- A pixel of the canvas gets the colour where it is one of the points. -/
theorem pixelAt_setPixels (points : List (Int × Int)) (c : Rgba) (s : State) {x y : Int}
    (h : onCanvas s.cfg x y = true) :
    pixelAt (setPixels points c s) x y = if (x, y) ∈ points then c else pixelAt s x y := by
  induction points generalizing s with
  | nil => simp [setPixels]
  | cons p points ih =>
    rw [setPixels_cons, ih _ (by rwa [setPixel_cfg]), pixelAt_setPixel _ _ _ _ h]
    by_cases hrest : (x, y) ∈ points
    · simp [hrest]
    · simp [hrest, Prod.ext_iff]

theorem canvasByte_setPixels_past (points : List (Int × Int)) (c : Rgba) (s : State) {a : Nat}
    (h : s.cfg.canvasBytes ≤ a) : canvasByte (setPixels points c s) a = canvasByte s a := by
  induction points generalizing s with
  | nil => rfl
  | cons p points ih =>
    rw [setPixels_cons, ih _ (by rwa [setPixel_cfg]), canvasByte_setPixel, if_neg]
    rintro ⟨hon, -, hlt⟩
    have := pixelAddr_lt hon
    omega

theorem wf_setPixels {s : State} (h : Memory.wf (some 0) s.cfg.canvasBytes s.canvas = true)
    (points : List (Int × Int)) (c : Rgba) :
    Memory.wf (some 0) s.cfg.canvasBytes (setPixels points c s).canvas = true := by
  induction points generalizing s with
  | nil => exact h
  | cons p points ih =>
    have hstep := ih (s := setPixel p.1 p.2 c s) (by rw [setPixel_cfg]; exact wf_setPixel h _ _ c)
    rwa [setPixel_cfg] at hstep

/-- A fill is SetPixel at the points of its shape, whatever their order and however often (R81). -/
theorem paint_eq_setPixels {shape : Int → Int → Bool} {points : List (Int × Int)} {s : State}
    (hmem : s.memoryOk = true) (h : ∀ x y, shape x y = true ↔ (x, y) ∈ points) (c : Rgba) :
    paint shape c s = setPixels points c s := by
  have hcfg : (paint shape c s).cfg = (setPixels points c s).cfg := (setPixels_cfg points c s).symm
  have hbytes : ∀ a, canvasByte (paint shape c s) a = canvasByte (setPixels points c s) a := by
    refine canvasByte_congr hcfg (fun x y hon => ?_) (fun a ha => ?_)
    · rw [setPixels_cfg] at hon
      rw [pixelAt_paint _ _ _ hon, pixelAt_setPixels _ _ _ hon]
      simp only [h]
    · rw [setPixels_cfg] at ha
      rw [canvasByte_paint_past _ _ _ ha, canvasByte_setPixels_past _ _ _ ha]
  have hwf := canvas_wf_of_memoryOk hmem
  rw [setPixels_frame, paint_frame, Memory.ext_of_wf (wf_paint hwf shape c) (wf_setPixels hwf points c) hbytes]

/-! ### The loops of R80 -/

theorem mem_intsFrom (lo : Int) (n : Nat) (v : Int) : v ∈ intsFrom lo n ↔ lo ≤ v ∧ v < lo + n := by
  simp only [intsFrom, List.mem_map, List.bind_eq_flatMap, List.pure_def, List.mem_flatMap, List.mem_singleton,
    List.mem_range]
  constructor
  · rintro ⟨_, ⟨k, hk, rfl⟩, rfl⟩
    omega
  · rintro ⟨hlo, hhi⟩
    exact ⟨v - lo, ⟨(v - lo).toNat, by omega, by omega⟩, by omega⟩

/-- The points of a double loop, row by row. -/
def gridPoints (xs ys : List Int) : List (Int × Int) := ys.flatMap (fun y => xs.map (fun x => (x, y)))

theorem mem_gridPoints (xs ys : List Int) (x y : Int) : (x, y) ∈ gridPoints xs ys ↔ x ∈ xs ∧ y ∈ ys := by
  simp [gridPoints, and_comm]

theorem fillRectLoop_eq_setPixels (x0 y0 w h : Int) (c : Rgb) (s : State) :
    fillRectLoop x0 y0 w h c s =
      setPixels (gridPoints (intsFrom x0 w.toNat) (intsFrom y0 h.toNat)) (opaqueColour c) s := by
  simp only [fillRectLoop, setPixels, gridPoints, List.foldl_flatMap, List.foldl_map]

/-- Settles O30: the box's points are those of the double loop, which is empty on an axis of negative length. -/
theorem fillRectIsTheSpecsLoop : Obligations.FillRectIsTheSpecsLoop := by
  unfold Obligations.FillRectIsTheSpecsLoop
  intro x0 y0 w h c s hmem
  rw [fillRectLoop_eq_setPixels, fillRect]
  refine paint_eq_setPixels hmem (fun x y => ?_) _
  rw [inBox_iff, mem_gridPoints, mem_intsFrom, mem_intsFrom]
  omega

/-- The distance test of FillCircle, inclusive. -/
def nearCentre (cx cy r : Int) (p : Int × Int) : Bool :=
  decide ((p.1 - cx) * (p.1 - cx) + (p.2 - cy) * (p.2 - cy) ≤ r * r)

theorem fillCircleLoop_eq_setPixels (cx cy r : Int) (c : Rgb) (s : State) :
    fillCircleLoop cx cy r c s =
      setPixels ((gridPoints (intsFrom (cx - r) (2 * r + 1).toNat) (intsFrom (cy - r) (2 * r + 1).toNat)).filter
        (nearCentre cx cy r)) (opaqueColour c) s := by
  simp only [fillCircleLoop, setPixels, gridPoints, List.foldl_filter, List.foldl_flatMap, List.foldl_map, nearCentre,
    decide_eq_true_eq]

/-- Settles O31: the disc's points are those of the bounding square that pass the distance test. -/
theorem fillCircleIsTheSpecsLoop : Obligations.FillCircleIsTheSpecsLoop := by
  unfold Obligations.FillCircleIsTheSpecsLoop
  intro cx cy r c s hmem
  rw [fillCircleLoop_eq_setPixels, fillCircle]
  refine paint_eq_setPixels hmem (fun x y => ?_) _
  have hsquare : (cx - r ≤ x ∧ x ≤ cx + r) ∧ (cy - r ≤ y ∧ y ≤ cy + r) ↔
      (cx - r ≤ x ∧ x < cx - r + (2 * r + 1).toNat) ∧ (cy - r ≤ y ∧ y < cy - r + (2 * r + 1).toNat) := by omega
  rw [inDisc_iff, List.mem_filter, mem_gridPoints, mem_intsFrom, mem_intsFrom, ← hsquare, nearCentre, decide_eq_true_eq]
  exact and_assoc.symm

end Sys2Proof.Machine
end

section
/-! SUPPORT and PROOFS. The stream of STORED: its length, that it inflates to its input, and so the law of ZCOMPRESS
(42_encoder.md R93 to R95). -/

namespace Sys2Proof.Machine

/-! ### Pieces of at most 65535 bytes (R95) -/

theorem storedBlocks_succ_of_long {fuel : Nat} {s : Bytes} (h : 65535 < s.length) :
    storedBlocks (fuel + 1) s = storedBlock false (s.take 65535) ++ storedBlocks fuel (s.drop 65535) := by
  rw [storedBlocks, if_neg (Nat.not_le.2 h)]

theorem storedBlocks_of_short (fuel : Nat) {s : Bytes} (h : s.length ≤ 65535) : storedBlocks fuel s = storedBlock true s := by
  cases fuel with
  | zero => rfl
  | succ fuel => rw [storedBlocks, if_pos h]

theorem length_storedBlock (final : Bool) (piece : Bytes) : (storedBlock final piece).length = 5 + piece.length := by
  simp only [storedBlock, le16, List.length_cons, List.length_append, List.length_nil]
  omega

/-- Five bytes for each block, one block for an empty input. -/
theorem length_storedBlocks (fuel : Nat) {s : Bytes} (h : s.length / 65535 ≤ fuel) :
    (storedBlocks fuel s).length = 5 * max 1 ((s.length + 65534) / 65535) + s.length := by
  induction fuel generalizing s with
  | zero =>
    rw [storedBlocks_of_short 0 (by omega), length_storedBlock]
    omega
  | succ fuel ih =>
    rcases Nat.lt_or_ge 65535 s.length with hlong | hshort
    · have hdrop : (s.drop 65535).length = s.length - 65535 := List.length_drop
      have htake : (s.take 65535).length = 65535 := List.length_take_of_le hlong.le
      rw [storedBlocks_succ_of_long hlong, List.length_append, length_storedBlock, ih (by omega), hdrop, htake]
      omega
    · rw [storedBlocks_of_short _ hshort, length_storedBlock]
      omega

/-- Settles O33: two bytes before the blocks and four after them. -/
theorem storedStreamLength : Obligations.StoredStreamLength := by
  unfold Obligations.StoredStreamLength
  intro s
  rw [storedStream, List.length_append, List.length_append, length_storedBlocks _ (Nat.le_refl _), length_be32]
  simp only [List.length_cons, List.length_nil]
  omega

/-! ### Inflating one stored block (R93) -/

/-- The byte before a stored block: BFINAL in bit 0, block type 0 in bits 2:1. -/
def storedHeader (final : Bool) : Byte := if final then 1 else 0

/-- LEN and its complement. -/
def storedLengths (piece : Bytes) : Bytes :=
  le16 (BitVec.ofNat 16 piece.length) ++ le16 (BitVec.ofNat 16 piece.length ^^^ 0xFFFF)

theorem storedBlock_append (final : Bool) (piece rest : Bytes) :
    storedBlock final piece ++ rest = storedHeader final :: (storedLengths piece ++ (piece ++ rest)) := by
  simp only [storedBlock, storedHeader, storedLengths, List.cons_append, List.append_assoc]

theorem bits_storedHeader_final (final : Bool) (rest : Bytes) :
    BitCursor.bits 1 ⟨storedHeader final :: rest, 0⟩ = some (final.toNat, ⟨storedHeader final :: rest, 1⟩) := by
  cases final <;> simp [BitCursor.bits, BitCursor.bit, storedHeader]

theorem bits_storedHeader_type (final : Bool) (rest : Bytes) :
    BitCursor.bits 2 ⟨storedHeader final :: rest, 1⟩ = some (0, ⟨storedHeader final :: rest, 3⟩) := by
  cases final <;> simp [BitCursor.bits, BitCursor.bit, storedHeader]

theorem append_le16 (v : BitVec 16) : v.extractLsb' 8 8 ++ v.extractLsb' 0 8 = v := append_extract (v := 8) (w := 8) v

/-- A stored block's LEN, its complement and its bytes are read back. -/
theorem inflateStored_piece {piece : Bytes} (h : piece.length ≤ 65535) (hdr : Byte) (rest out : Bytes) :
    inflateStored ⟨hdr :: (storedLengths piece ++ (piece ++ rest)), 3⟩ out =
      some (⟨rest, 0⟩, piece.reverse ++ out) := by
  have hlen : (BitVec.ofNat 16 piece.length).toNat = piece.length := by rw [BitVec.toNat_ofNat]; omega
  have hfit : piece.length ≤ (piece ++ rest).length := by rw [List.length_append]; omega
  have haligned : BitCursor.aligned ⟨hdr :: (storedLengths piece ++ (piece ++ rest)), 3⟩ =
      storedLengths piece ++ (piece ++ rest) := rfl
  rw [inflateStored, haligned]
  simp only [storedLengths, le16, List.cons_append, List.nil_append, append_le16, hlen, hfit, and_self, if_true,
    List.take_left, List.drop_left]

/-- The inflater reads one stored block, and ends where it is the final one. -/
theorem inflateBlocks_storedBlock (symFuel fuel : Nat) (final : Bool) {piece : Bytes} (h : piece.length ≤ 65535)
    (rest out : Bytes) :
    inflateBlocks symFuel (fuel + 1) ⟨storedBlock final piece ++ rest, 0⟩ out =
      if final = true then some (⟨rest, 0⟩, piece.reverse ++ out)
      else inflateBlocks symFuel fuel ⟨rest, 0⟩ (piece.reverse ++ out) := by
  rw [storedBlock_append, inflateBlocks, bits_storedHeader_final]
  simp only [bits_storedHeader_type, inflateBlock, if_true, inflateStored_piece h]
  cases final <;> rfl

/-- The inflater reads all blocks of a stored stream. -/
theorem inflateBlocks_storedBlocks (symFuel n : Nat) {s : Bytes} (hs : s.length / 65535 ≤ n) {fuel : Nat} (hfuel : n < fuel)
    (rest out : Bytes) :
    inflateBlocks symFuel fuel ⟨storedBlocks n s ++ rest, 0⟩ out = some (⟨rest, 0⟩, s.reverse ++ out) := by
  induction n generalizing s fuel out with
  | zero =>
    obtain ⟨fuel, rfl⟩ := Nat.exists_eq_succ_of_ne_zero (Nat.ne_of_gt hfuel)
    rw [storedBlocks, inflateBlocks_storedBlock _ _ true (by omega), if_pos rfl]
  | succ n ih =>
    obtain ⟨fuel, rfl⟩ := Nat.exists_eq_succ_of_ne_zero (Nat.ne_of_gt (Nat.zero_lt_of_lt hfuel))
    rcases Nat.lt_or_ge 65535 s.length with hlong | hshort
    · have hdrop : (s.drop 65535).length = s.length - 65535 := List.length_drop
      have htake : (s.take 65535).length ≤ 65535 := List.length_take_le ..
      rw [storedBlocks_succ_of_long hlong, List.append_assoc, inflateBlocks_storedBlock _ _ false htake,
        if_neg Bool.false_ne_true, ih (by omega) (by omega), ← List.append_assoc, ← List.reverse_append,
        List.take_append_drop]
    · rw [storedBlocks_of_short _ hshort, inflateBlocks_storedBlock _ _ true hshort, if_pos rfl]

/-! ### The law of ZCOMPRESS (R93) -/

/-- Settles O34: after the two header bytes the inflater reads the blocks, and the Adler-32 that is left is the input's. -/
theorem storedStreamInflatesToItsInput : Obligations.StoredStreamInflatesToItsInput := by
  unfold Obligations.StoredStreamInflatesToItsInput
  intro s
  have hheader : zlibHeaderOk 0x78 0x01 = true := by decide
  have hfuel : s.length / 65535 < 8 * (storedBlocks (s.length / 65535) s ++ be32 (adler32 s)).length + 1 := by
    rw [List.length_append, length_storedBlocks _ (Nat.le_refl _)]
    omega
  rw [storedStream, List.append_assoc, List.cons_append, List.cons_append, List.nil_append, zlibDecode, if_pos hheader,
    inflateBlocks_storedBlocks _ _ (Nat.le_refl _) hfuel]
  simp [BitCursor.aligned]

/-- Settles O35: STORED by its own law, the failing compressor for want of a stream, a chip's because it is held to the law. -/
theorem compressedStreamInflatesToTheInput : Obligations.CompressedStreamInflatesToTheInput := by
  unfold Obligations.CompressedStreamInflatesToTheInput
  intro c s z hz
  cases c with
  | stored =>
    cases hz
    exact storedStreamInflatesToItsInput s
  | failing => cases hz
  | chip =>
    rw [zcompress] at hz
    split at hz
    · cases hz
    · split_ifs at hz with hlaw
      cases hz
      exact hlaw

end Sys2Proof.Machine
end

section
/-! SUPPORT and PROOFS. A successful ENCODE, and that each part of a reader undoes the part of the encoder it stands against
(42_encoder.md R92, R96 to R98, R100). -/

namespace Sys2Proof.Machine

/-! ### A successful ENCODE (R98) -/

/-- After `putOut` of a file that fits, the host reads that file. -/
theorem outList_putOut {s : State} {f : Bytes} (hfit : f.length ≤ s.cfg.outCap) (d : Word) : outList (putOut s f) d = f := by
  have hlen := toNat_length_of_le_outCap hfit
  have hsize : f.length < 2 ^ 32 := hlen ▸ (BitVec.ofNat 32 f.length).isLt
  rw [outList, putOut_outLen, hlen]
  apply List.ext_getElem
  · simp
  · intro k hk hkf
    simp [outByte_putOut s hsize, hkf]

theorem outList_advance (n : Nat) (s : State) (d : Word) : outList (advance n s) d = outList s d := rfl

/-- Settles O24: the meaning of a successful ENCODE is `putOut` of the file. -/
theorem encodeWritesTheFile : Obligations.EncodeWritesTheFile := by
  unfold Obligations.EncodeWritesTheFile
  intro s z hz hfit
  refine ⟨_, exec_encode_of_success hz hfit, ?_, fun d => ?_, ?_⟩
  · rw [regRead, advance_outLen, putOut_outLen, toNat_length_of_le_outCap hfit]
  · rw [outList_advance, outList_putOut hfit]
  · ext1 <;> simp

/-! ### Numbers and rows -/

/-- The big-endian bytes of a word are read back. -/
theorem be32Value_be32 (v : Word) : be32Value (be32 v) = v.toNat := by
  have hv := v.isLt
  simp only [be32Value, be32, List.foldl_cons, List.foldl_nil, BitVec.extractLsb'_toNat, Nat.shiftRight_eq_div_pow]
  omega

/-- The rows are unfiltered to what was filtered. -/
theorem unfilterRows_filterRows (k n : Nat) {s : Bytes} (h : s.length = n * k) :
    unfilterRows k n (filterRows k n s) = some s := by
  induction n generalizing s with
  | zero =>
    obtain rfl : s = [] := List.eq_nil_of_length_eq_zero (by omega)
    rfl
  | succ n ih =>
    rw [Nat.succ_mul] at h
    have hrow : (s.take k).length = k := List.length_take_of_le (by omega)
    have hrest : (s.drop k).length = n * k := by rw [List.length_drop]; omega
    have hle : k ≤ (s.take k ++ filterRows k n (s.drop k)).length := by rw [List.length_append, hrow]; omega
    rw [filterRows, unfilterRows, if_pos ⟨rfl, hle⟩, List.drop_left' hrow, List.take_left' hrow, ih hrest, Option.map_some,
      List.take_append_drop]

/-! ### Chunks (R96) -/

/-- A chunk and what follows it, from the left: length, identifier, payload, checksum. -/
theorem chunk_append (t d rest : Bytes) :
    chunk t d ++ rest =
      be32 (BitVec.ofNat 32 d.length) ++ (t ++ (d ++ (be32 (crc32 (t ++ d)) ++ rest))) := by
  simp only [chunk, List.append_assoc]

theorem take_length_chunk (t d rest : Bytes) : (chunk t d ++ rest).take 4 = be32 (BitVec.ofNat 32 d.length) := by
  rw [chunk_append, List.take_left' (length_be32 _)]

theorem drop_length_chunk (t d rest : Bytes) :
    (chunk t d ++ rest).drop 4 = t ++ (d ++ (be32 (crc32 (t ++ d)) ++ rest)) := by
  rw [chunk_append, List.drop_left' (length_be32 _)]

theorem drop_identifier_chunk {t : Bytes} (ht : t.length = 4) (d rest : Bytes) :
    (chunk t d ++ rest).drop 8 = d ++ (be32 (crc32 (t ++ d)) ++ rest) := by
  rw [← List.drop_drop (i := 4) (j := 4), drop_length_chunk, List.drop_left' ht]

theorem drop_payload_chunk {t : Bytes} (ht : t.length = 4) (d rest : Bytes) :
    (chunk t d ++ rest).drop (8 + d.length) = be32 (crc32 (t ++ d)) ++ rest := by
  rw [← List.drop_drop, drop_identifier_chunk ht, List.drop_left]

/-- A chunk is read back, and what follows it is left. -/
theorem readChunk_chunk {t d : Bytes} (ht : t.length = 4) (hd : d.length < 2 ^ 32) (rest : Bytes) :
    readChunk (chunk t d ++ rest) = some (t, d, rest) := by
  have hlen : be32Value (be32 (BitVec.ofNat 32 d.length)) = d.length := by
    rw [be32Value_be32, BitVec.toNat_ofNat, Nat.mod_eq_of_lt hd]
  have hsize : ¬ (chunk t d ++ rest).length < 12 + d.length := by rw [List.length_append, length_chunk ht]; omega
  have hrest : (chunk t d ++ rest).drop (12 + d.length) = rest := List.drop_left' (length_chunk ht d)
  simp only [readChunk, take_length_chunk, hlen, drop_length_chunk, List.take_left' ht, drop_identifier_chunk ht,
    List.take_left, drop_payload_chunk ht, List.take_left' (length_be32 _), if_neg hsize, if_true, hrest]

/-! ### The file (R97, R100) -/

theorem pngFile_eq (c : Config) (z : Bytes) :
    pngFile c z = fileSignature ++ (chunk idIHDR (ihdrPayload c) ++ (chunk idIDAT z ++ (chunk idIEND [] ++ []))) := by
  simp only [pngFile, List.append_assoc, List.append_nil]

/-- Width and height are read back from IHDR. -/
theorem ihdr_width (c : Config) : be32Value ((ihdrPayload c).take 4) = c.width := by
  have hw := c.width_range
  have htake : (ihdrPayload c).take 4 = be32 (BitVec.ofNat 32 c.width) := rfl
  rw [htake, be32Value_be32, BitVec.toNat_ofNat, Nat.mod_eq_of_lt (by omega)]

theorem ihdr_height (c : Config) : be32Value (((ihdrPayload c).drop 4).take 4) = c.height := by
  have hh := c.height_range
  have htake : ((ihdrPayload c).drop 4).take 4 = be32 (BitVec.ofNat 32 c.height) := rfl
  rw [htake, be32Value_be32, BitVec.toNat_ofNat, Nat.mod_eq_of_lt (by omega)]

/-- A reader of a file whose compressed stream inflates to `n` filtered rows finds those rows. -/
theorem readFile_pngFile {c : Config} {z s : Bytes} (hz : z.length < 2 ^ 32)
    (hinflate : zlibDecode z = some (filterRows (c.width * 4) c.height s)) (hs : s.length = c.height * (c.width * 4)) :
    readFile (pngFile c z) = some (c.width, c.height, s) := by
  have hsig : fileSignature.length = 8 := rfl
  have hihdr := readChunk_chunk (t := idIHDR) (d := ihdrPayload c) rfl (by rw [length_ihdrPayload]; decide)
  have hidat := readChunk_chunk (t := idIDAT) (d := z) rfl hz
  have hiend := readChunk_chunk (t := idIEND) (d := []) rfl (by decide)
  have hformat : (ihdrPayload c).drop 8 = [8, 6, 0, 0, 0] := rfl
  rw [readFile, pngFile_eq, List.take_left' hsig, List.drop_left' hsig]
  simp only [ne_eq, not_true_eq_false, if_false, hihdr, hidat, hiend, hformat, and_self, if_true, hinflate, ihdr_width,
    ihdr_height, unfilterRows_filterRows _ _ hs, Option.map_some]

/-- Settles O37: OUT holds the file, and the compressor's law gives the scanline stream back from it. -/
theorem encodedFileReadsBackAsTheCanvas : Obligations.EncodedFileReadsBackAsTheCanvas := by
  unfold Obligations.EncodedFileReadsBackAsTheCanvas
  intro s z hmem hz hfit
  have hcap := s.cfg.outCap_range
  have hzlen := length_pngFile s.cfg z
  have hinflate : zlibDecode z = some (filterRows (s.cfg.width * 4) s.cfg.height (canvasList s)) := by
    rw [compressedStreamInflatesToTheInput _ _ _ hz, scanStream, span_canvas hmem]
  have hrows : (canvasList s).length = s.cfg.height * (s.cfg.width * 4) := by
    rw [canvasList, List.length_map, List.length_range, canvasBytes_eq_rows]
  refine ⟨_, exec_encode_of_success hz hfit, fun d => ?_⟩
  rw [outList_advance, outList_putOut hfit, readFile_pngFile (by omega) hinflate hrows]

end Sys2Proof.Machine
end

section
/-! SUPPORT and PROOFS. Host reads by the offset's target, the bits of STATUS and IE, and the statements on registers, windows and
the interrupt line (10_state.md R10, R15, R21 to R28, 20_memory.md R42, R43, 60_exceptions.md R113). -/

namespace Sys2Proof.Machine

/-! ### Reads by target (R15) -/

/-- A read at a listed offset is free where the register is volatile and BUSY is set, and exact else. -/
theorem readOffset_of_mem_regMap {off : Nat} {r : Reg} (h : (off, r) ∈ regMap) (s : State) (d : Word) :
    readOffset s d off = if s.status.busy && regVolatile r then d else regRead s r := by
  rw [readOffset, targetAt_of_mem_regMap s.cfg h]
  rfl

theorem readOffset_exact {off : Nat} {r : Reg} (h : (off, r) ∈ regMap) (hr : regVolatile r = false) (s : State) (d : Word) :
    readOffset s d off = regRead s r := by
  rw [readOffset_of_mem_regMap h, hr, Bool.and_false, if_neg Bool.false_ne_true]

theorem readOffset_idle {off : Nat} {r : Reg} (h : (off, r) ∈ regMap) {s : State} (hidle : s.status.busy = false)
    (d : Word) : readOffset s d off = regRead s r := by
  rw [readOffset_of_mem_regMap h, hidle, Bool.false_and, if_neg Bool.false_ne_true]

theorem readOffset_busy {s : State} {off : Nat} (hb : s.status.busy = true)
    (h : targetVolatile (targetAt s.cfg off) = true) (d : Word) : readOffset s d off = d := by
  rw [readOffset, hb, h, Bool.and_self, if_pos rfl]

theorem readOffset_window_idle {s : State} (hidle : s.status.busy = false) (d : Word) (off : Nat) :
    readOffset s d off = targetRead s d (targetAt s.cfg off) := by
  rw [readOffset, hidle, Bool.false_and, if_neg Bool.false_ne_true]

/-- The offsets that R10's table marks volatile. -/
theorem volatile_at_offset :
    ∀ off ∈ [0x01C, 0x024, 0x028, 0x02C, 0x030, 0x034, 0x038, 0x03C], ∃ e ∈ regMap, e.1 = off ∧ regVolatile e.2 = true := by
  decide

/-- The volatile registers and all of the CANVAS and OUT windows are free while BUSY. -/
theorem targetVolatile_of_offset (c : Config) {off : Nat}
    (h : off ∈ [0x01C, 0x024, 0x028, 0x02C, 0x030, 0x034, 0x038, 0x03C] ∨ (0x400000 ≤ off ∧ off < 0x1000000)) :
    targetVolatile (targetAt c off) = true := by
  rcases h with hreg | hwindow
  · obtain ⟨⟨_, r⟩, hmem, rfl, hvol⟩ := volatile_at_offset off hreg
    rw [targetAt_of_mem_regMap c hmem]
    exact hvol
  · rw [targetAt, if_neg (by omega), if_neg (by omega), if_neg (by omega), if_neg (by omega)]
    split
    · rfl
    · rw [if_pos (by omega)]
      rfl

/-- CFG_DIM packs H above W (R17). -/
theorem cfgDim_eq (c : Config) :
    BitVec.ofNat 16 c.height ++ BitVec.ofNat 16 c.width = BitVec.ofNat 32 (c.height * 65536 + c.width) := by
  have hw := c.width_range
  have hh := c.height_range
  apply BitVec.eq_of_toNat_eq
  rw [BitVec.toNat_append, BitVec.toNat_ofNat, BitVec.toNat_ofNat, BitVec.toNat_ofNat,
    ← Nat.shiftLeft_add_eq_or_of_lt (Nat.mod_lt _ (by decide)), Nat.shiftLeft_eq]
  omega

/-- Settles O41: volatility is the target's; the exact registers are read by `regRead`. -/
theorem volatileReadsAreFreeOthersExact : Obligations.VolatileReadsAreFreeOthersExact := by
  unfold Obligations.VolatileReadsAreFreeOthersExact
  intro s d
  refine ⟨fun hb off hoff => readOffset_busy hb (targetVolatile_of_offset s.cfg hoff) d, ?id, ?dim, ?cmdw, ?outcap,
    ?status, ?ie, ?info, fun i hi => readOffset_cmdWord hi d, fun addr => rfl⟩
  case id => exact readOffset_exact (r := .id) (by decide) rfl s d
  case dim => exact (readOffset_exact (r := .cfgDim) (by decide) rfl s d).trans (cfgDim_eq s.cfg)
  case cmdw => exact readOffset_exact (r := .cfgCmdw) (by decide) rfl s d
  case outcap => exact readOffset_exact (r := .cfgOutcap) (by decide) rfl s d
  case status => exact readOffset_exact (r := .status) (by decide) rfl s d
  case ie => exact readOffset_exact (r := .ie) (by decide) rfl s d
  case info => exact readOffset_exact (r := .faultInfo) (by decide) rfl s d

/-! ### The bits of STATUS and IE (R21, R23) -/

/-- STATUS bit by bit. -/
theorem Status.getLsbD_toWord (st : Status) (k : Nat) :
    st.toWord.getLsbD k =
      if k = 0 then st.busy else if k = 1 then st.done else if k = 2 then st.fault else if k = 3 then st.busyErr
      else decide (8 ≤ k ∧ k < 12) && st.fcode.code.getLsbD (k - 8) := by
  simp only [Status.toWord, bit, BitVec.getLsbD_append, BitVec.getLsbD_ofBool]
  rcases Nat.lt_or_ge k 12 with hlow | hhigh
  · interval_cases k <;> simp
  · have hpast : ∀ n, n < 12 → k ≠ n := by omega
    rw [if_neg (by omega), if_neg (by omega), if_neg (by omega), if_neg (by omega), if_neg (by omega), if_neg (by omega)]
    simp [hpast, Nat.not_lt.2 hhigh]

theorem Status.fcode_toWord (st : Status) : st.toWord.extractLsb' 8 4 = st.fcode.code := by
  apply BitVec.eq_of_getLsbD_eq
  intro k hk
  have hfield : 8 ≤ 8 + k ∧ 8 + k < 12 := by omega
  rw [BitVec.getLsbD_extractLsb', Status.getLsbD_toWord, if_neg (by omega), if_neg (by omega), if_neg (by omega),
    if_neg (by omega), decide_eq_true hfield, decide_eq_true hk, Nat.add_sub_cancel_left, Bool.true_and, Bool.true_and]

/-- IE bit by bit. -/
theorem IrqEnable.getLsbD_toWord (ie : IrqEnable) :
    ie.toWord.getLsbD 1 = ie.done ∧ ie.toWord.getLsbD 2 = ie.fault ∧ ie.toWord.getLsbD 3 = ie.busyErr := by
  simp only [IrqEnable.toWord, bit, BitVec.getLsbD_append, BitVec.getLsbD_ofBool]
  simp

/-- Settles O43: the written STATUS is `Status.clear`, read bit by bit. -/
theorem statusIsWriteOneToClear : Obligations.StatusIsWriteOneToClear := by
  unfold Obligations.StatusIsWriteOneToClear
  intro s data
  rw [writeOffset_of_mem_regMap (r := .status) (by decide) data s]
  simp only [regWrite, regRead, Status.getLsbD_toWord, Status.fcode_toWord]
  refine ⟨rfl, fun k h1 h3 => ?cleared, ?fcode, fun k hk => ?reserved, trivial⟩
  case cleared =>
    have hk : k = 1 ∨ k = 2 ∨ k = 3 := by omega
    rcases hk with rfl | rfl | rfl <;> rfl
  case fcode =>
    rw [Status.clear, apply_ite FaultCode.code]
    rfl
  case reserved =>
    rw [if_neg (by omega), if_neg (by omega), if_neg (by omega), if_neg (by omega), decide_eq_false (by omega),
      Bool.false_and]

/-- Settles O48: the bits of the two words are the fields that `irq` takes. -/
theorem irqIsEnabledStatus : Obligations.IrqIsEnabledStatus := by
  unfold Obligations.IrqIsEnabledStatus
  intro s
  obtain ⟨hdone, hfault, hbusyErr⟩ := IrqEnable.getLsbD_toWord s.ie
  rw [regRead, regRead, hdone, hfault, hbusyErr]
  simp only [Status.getLsbD_toWord]
  rfl

/-! ### Registers that read back (R10, R22, R23, R28) -/

theorem palOffset_mem_regMap (p : Pal) : (palOffset p, .pal p) ∈ regMap := by cases p <;> decide

theorem writeOffset_pal_idle (p : Pal) {s : State} (hidle : s.status.busy = false) (data : Word) :
    writeOffset data (palOffset p) s = putPal s p (Rgb.ofWord data) := by
  rw [writeOffset_of_mem_regMap (palOffset_mem_regMap p), regWrite, guarded_idle hidle]

theorem writeOffset_pc_idle {s : State} (hidle : s.status.busy = false) (data : Word) :
    writeOffset data 0x01C s = { s with pc := data } := by
  rw [writeOffset_of_mem_regMap (r := .pc) (by decide), regWrite, guarded_idle hidle]

theorem writeOffset_ie (s : State) (data : Word) :
    writeOffset data 0x018 s = { s with ie := IrqEnable.ofWord data } :=
  writeOffset_of_mem_regMap (r := .ie) (by decide) data s

/-- Settles O44: idle reads are `regRead`, and each write is its register's. -/
theorem writableRegistersReadBack : Obligations.WritableRegistersReadBack := by
  unfold Obligations.WritableRegistersReadBack
  intro s data d p
  refine ⟨fun hidle => ⟨?_, ?_, ?_, ?_, ?_, ?_, ?_, ?_⟩, fun hidle => ?pc, ?ie, fun hidle => ?pal⟩
  · exact readOffset_idle (r := .pc) (by decide) hidle d
  · exact readOffset_idle (r := .crcAcc) (by decide) hidle d
  · exact readOffset_idle (r := .crcValue) (by decide) hidle d
  · exact readOffset_idle (r := .outLen) (by decide) hidle d
  · exact readOffset_idle (palOffset_mem_regMap .background) hidle d
  · exact readOffset_idle (palOffset_mem_regMap .accent) hidle d
  · exact readOffset_idle (palOffset_mem_regMap .highlight) hidle d
  · exact readOffset_idle (palOffset_mem_regMap .shadow) hidle d
  case pc =>
    rw [writeOffset_pc_idle hidle]
    exact ⟨readOffset_idle (s := { s with pc := data }) (r := .pc) (by decide) hidle d, rfl⟩
  case ie =>
    rw [writeOffset_ie]
    refine ⟨?_, rfl⟩
    rw [readOffset_exact (r := .ie) (by decide) rfl, regRead, IrqEnable.toWord_ofWord]
  case pal =>
    have hidle' : (putPal s p (Rgb.ofWord data)).status.busy = false := by rw [putPal_status, hidle]
    rw [writeOffset_pal_idle p hidle]
    refine ⟨?_, fun q hq => ?_, putPal_frame s p _⟩
    · rw [readOffset_idle (palOffset_mem_regMap p) hidle', regRead_pal_putPal, if_pos rfl, rgb_toWord_ofWord]
    · rw [readOffset_idle (palOffset_mem_regMap q) hidle', readOffset_idle (palOffset_mem_regMap q) hidle,
        regRead_pal_putPal, if_neg hq]

/-! ### The CANVAS and OUT windows (R42, R43) -/

/-- A window word of the canvas is its pixel. -/
theorem packWord_canvas (s : State) (i : Nat) :
    packWord (fun j => canvasByte s (4 * i + j)) =
      (pixelAt s (i % s.cfg.width : Nat) (i / s.cfg.width : Nat)).toWord := by
  rw [pixelAt, pixelAddr_of_index]
  rfl

/-- Settles O46: a word of the window is `canvasWord`, whose bytes are its pixel's channels. -/
theorem canvasWindowIsPixelWords : Obligations.CanvasWindowIsPixelWords := by
  unfold Obligations.CanvasWindowIsPixelWords
  intro s d data i hi
  have htarget := targetAt_canvas s.cfg hi
  refine ⟨fun hidle hin => ?_, fun hidle hpast => ?_, fun hb => ?_, ?_⟩
  · rw [readOffset_window_idle hidle, htarget, targetRead, Config.pixels, if_pos hin, packWord_canvas]
    rfl
  · rw [readOffset_window_idle hidle, htarget, targetRead, Config.pixels, if_neg (Nat.not_lt.2 hpast)]
  · exact readOffset_busy hb (by rw [htarget]; rfl) d
  · rw [writeOffset, htarget, targetWrite]

/-- Settles O47: a word of the window is `outWord`, whose bytes are `outByte`'s. -/
theorem outWindowIsLittleEndian : Obligations.OutWindowIsLittleEndian := by
  unfold Obligations.OutWindowIsLittleEndian
  intro s d data k hk
  have htarget := targetAt_out s.cfg hk
  refine ⟨fun hidle hin j hj => ?_, fun hidle hpast => ?_, fun hb => ?_, ?_⟩
  · rw [readOffset_window_idle hidle, htarget, targetRead, if_pos hin, byteOf_packWord _ hj]
    split
    · rfl
    · next hfree =>
      have hmod : (4 * k + j) % 4 = j := by omega
      rw [outByte, if_neg hfree, hmod]
  · rw [readOffset_window_idle hidle, htarget, targetRead, if_neg (Nat.not_lt.2 hpast)]
  · exact readOffset_busy hb (by rw [htarget]; rfl) d
  · rw [writeOffset, htarget, targetWrite]

end Sys2Proof.Machine
end

section
/-! SUPPORT and PROOFS. What the registers, OUT and CMD read after each reset and after the reset clear, and the statements on
them (70_reset_and_hazards.md R122 to R124). -/

namespace Sys2Proof.Machine

/-! ### Soft and hardware reset (R122, R123) -/

/-- What a soft reset leaves in the registers, as the host's words. -/
theorem regRead_softReset (s : State) :
    regRead (softReset s) .pc = 0 ∧ regRead (softReset s) .ie = 0 ∧ regRead (softReset s) .faultInfo = 0 ∧
      regRead (softReset s) .crcAcc = 0xFFFFFFFF ∧ regRead (softReset s) .crcValue = 0 ∧
      regRead (softReset s) .outLen = 0 ∧ (∀ p, regRead (softReset s) (.pal p) = 0) ∧
      regRead (softReset s) .status = 0x00000001 := by
  have hie : IrqEnable.toWord { done := false, fault := false, busyErr := false } = 0 := by decide
  have hstatus : Status.toWord { busy := true, done := false, fault := false, busyErr := false, fcode := .none } = 1 := by
    decide
  have hblack : Rgb.toWord { r := 0, g := 0, b := 0 } = 0 := by decide
  exact ⟨rfl, hie, rfl, rfl, BitVec.xor_self, rfl, fun p => by cases p <;> exact hblack, hstatus⟩

/-- A hardware reset leaves the registers as a soft reset does. -/
theorem regRead_hardReset (s : State) (r : Reg) : regRead (hardReset s) r = regRead (softReset s) r := by
  cases r
  case pal p => cases p <;> rfl
  all_goals rfl

/-- No interrupt is enabled right after a soft reset. -/
theorem irq_softReset (s : State) : irq (softReset s) = false := rfl

/-- Settles O49: a write of CTRL with SRST set is `softReset`. -/
theorem softResetLeavesTheResetValues : Obligations.SoftResetLeavesTheResetValues := by
  unfold Obligations.SoftResetLeavesTheResetValues
  intro s data d hsrst
  rw [writeOffset_ctrl, writeCtrl_srst hsrst]
  obtain ⟨hpc, hie, hinfo, hacc, hvalue, hlen, hpal, hstatus⟩ := regRead_softReset s
  exact ⟨hpc, hie, hinfo, hacc, hvalue, hlen, hpal, hstatus, rfl, irq_softReset s,
    fun a => outByte_of_outLen_zero rfl d a, cmdWord_softReset s⟩

/-- After a hardware reset no word of CMD is listed, and the count of resets names its free values. -/
theorem cmdWord_hardReset (s : State) (i : Nat) : cmdWord (hardReset s) i = Config.powerUpWord (s.cmdEpoch + 1) i := rfl

/-- Settles O50: the move is `hardReset`, whose registers are a soft reset's. -/
theorem hardResetLeavesTheResetValues : Obligations.HardResetLeavesTheResetValues := by
  unfold Obligations.HardResetLeavesTheResetValues
  intro s rest d hagenda
  obtain ⟨hpc, hie, hinfo, hacc, hvalue, hlen, hpal, hstatus⟩ := regRead_softReset { s with agenda := rest }
  refine ⟨hardReset { s with agenda := rest }, step_of_agenda_cons hagenda, ?_⟩
  simp only [regRead_hardReset]
  exact ⟨hpc, hie, hinfo, hacc, hvalue, hlen, hpal, hstatus, rfl, fun a => outByte_of_outLen_zero rfl d a,
    cmdWord_hardReset { s with agenda := rest }⟩

/-! ### The 128 by 128 block (R124) -/

theorem step_reset : step State.reset = .next (resetClear State.reset) := step_resetClear rfl rfl rfl

/-- Settles O52: the registers' values are closed and the kernel computes them; the reads follow from the register map. -/
theorem resetStateReadsAsListed : Obligations.ResetStateReadsAsListed := by
  unfold Obligations.ResetStateReadsAsListed
  intro d
  have hbusy : State.reset.status.busy = true := rfl
  have hidle : (resetClear State.reset).status.busy = false := rfl
  refine ⟨fun e he => ?exact, by decide, fun off hoff => readOffset_busy hbusy (targetVolatile_of_offset _ hoff) d, rfl, rfl,
    fun a => outByte_of_outLen_zero rfl d a, ⟨0, fun i => rfl⟩, resetClear State.reset, step_reset, fun e he => ?idle, rfl,
    rfl, canvasByte_resetClear State.reset, fun a => outByte_of_outLen_zero rfl d a, fun i => rfl,
    idleEngineKeepsState _ rfl hidle⟩
  case exact =>
    have hlisted : ∃ m ∈ regMap, m.1 = e.1 ∧ regVolatile m.2 = false ∧ regRead State.reset m.2 = e.2 := by
      revert e he
      decide
    obtain ⟨⟨_, r⟩, hmem, hoff, hexact, hvalue⟩ := hlisted
    rw [← hoff, ← hvalue]
    exact readOffset_exact hmem hexact State.reset d
  case idle =>
    have hlisted : ∃ m ∈ regMap, m.1 = e.1 ∧ regRead (resetClear State.reset) m.2 = e.2 := by
      revert e he
      decide
    obtain ⟨⟨_, r⟩, hmem, hoff, hvalue⟩ := hlisted
    rw [← hoff, ← hvalue]
    exact readOffset_idle hmem hidle d

end Sys2Proof.Machine
end
